-- ==== Sys2Proof/Word.lean ====
section
/-! DEFINITION. The widths of the hardware's values as types (`00_scope.md` rules R5, R6): every value is an
unsigned bit vector of a stated width. -/

namespace Sys2Proof

/-- A checksum: `CRC_WIDTH` = 16 bits (rule R5). -/
abbrev Word := BitVec 16

/-- An input unit and a memory cell: `BYTE_WIDTH` = 8 bits (rules R5, R20). -/
abbrev Byte := BitVec 8

/-- A byte address: `ADDR_WIDTH` = 32 bits (rules R5, R20, decision D8). -/
abbrev Addr := BitVec 32

/-- A buffer length: `LEN_WIDTH` = 32 bits (rules R5, R45, decision D9). -/
abbrev Len := BitVec 32

/-- A command word: `CMD_WIDTH` = 72 bits (rules R5, R42, decision D5). -/
abbrev CmdWord := BitVec 72

end Sys2Proof
end

