-- ==== Sys2Proof/Config.lean ====
section
/-! DEFINITION. The parameters of one instance, fixed when it is built (`00_scope.md` rule R5, `10_state.md` rule R14).
The three the spec leaves open and that a model may name (HAS_F32, HAS_F64, KERNEL_IMPL) are constants without a body:
whatever is proved holds for every value of them; so is the host's character set (rule R53). PORT_PROTOCOL and LATENCY are left out (log 13). -/

namespace Sys2Proof.Config

/-- `DEFAULT_SEED`: the value a command with S = 1 starts from (rules R5, R44). -/
abbrev defaultSeed : Word := 0xFFFF#16

/-- `NULL_ADDR`: the pointer value that means "null" (rules R5, R28, decision D10). -/
abbrev nullAddr : Addr := 0#32

/-- The bit-reflected form of `POLY` = 0x1021 (rules R1, R5). Built into the kernel; named by `Machine.serial` only. -/
abbrev polyReflected : Word := 0x8408#16

/-- The first number that is no address: 2 to the power `ADDR_WIDTH` (rule R29). -/
abbrev addrLimit : Nat := 4294967296

/-- `HAS_F32`: whether the assembler alias FOLD_F32 exists (rules R5, R95, decision D19). Open: a Bool without a body. -/
opaque hasF32 : Bool

/-- `HAS_F64`: whether the assembler alias FOLD_F64 exists (rules R5, R95, decision D19). Open: a Bool without a body. -/
opaque hasF64 : Bool

/-- The two values of `KERNEL_IMPL` (rules R5, R68). -/
inductive KernelImpl where
  | generic
  | vendor
deriving DecidableEq, Repr, Inhabited

/-- `KERNEL_IMPL`: which implementation of the kernel the instance was built with (rule R68, decision D21). Open. No
definition of the model reads it: every implementation equals `Update` on all inputs, so it cannot be observed. -/
opaque kernelImpl : KernelImpl

/-- The host's character set: the code of a character, none for one that is not in it (rule R53). Open: a function without a body
(log 14). The assembler's FOLD_CHAR alone reads it. -/
opaque charCode : Char → Option Byte

end Sys2Proof.Config
end

