-- ==== Sys2Proof/Machine/Kernel.lean ====
section
/-! DEFINITION. The KERNEL and the fold of a list of bytes (`40_kernel.md` rules R60, R63, R66): pure functions, no state. -/

namespace Sys2Proof.Machine

/-- `lo8(c)` = `c[7:0]` (`00_scope.md` rule R7). -/
def lo8 (c : Word) : Byte := c.extractLsb' 0 8

/-- `hi8(c)` = `c[15:8]` (`00_scope.md` rule R7). -/
def hi8 (c : Word) : Byte := c.extractLsb' 8 8

/-- Step 2 of rule R60: the low nibble of `t` is XORed into its high nibble; the shift is cut to 8 bits. -/
def nibbleFold (t : Byte) : Byte := t ^^^ (t <<< 4)

/-- Step 3 of rule R60: `{d, hi8(crc)} XOR zext_16(d >> 4) XOR trunc_16(zext_16(d) << 3)`. -/
def spread (hi d : Byte) : Word :=
  (d ++ hi) ^^^ (d >>> 4).setWidth 16 ^^^ (d.setWidth 16 <<< 3)

/-- `Update(crc, byte)` of rule R60. -/
def update (crc : Word) (byte : Byte) : Word :=
  spread (hi8 crc) (nibbleFold (byte ^^^ lo8 crc))

/-- `FoldList(crc, bs)` of rule R66: first element first. -/
def foldList (crc : Word) : List Byte → Word
  | [] => crc
  | b :: bs => foldList (update crc b) bs

/-- One step of the bit-serial divider of rule R63: shift right, XOR 0x8408 when the bit shifted out was 1. -/
def serialStep (r : Word) : Word :=
  if r.getLsbD 0 then (r >>> 1) ^^^ Config.polyReflected else r >>> 1

/-- `n` steps of the bit-serial divider. -/
def serialSteps : Nat → Word → Word
  | 0, r => r
  | n + 1, r => serialSteps n (serialStep r)

/-- `Serial(crc, byte)` of rule R63: a cross-check, not a second definition (G1). No command calls it. -/
def serial (crc : Word) (byte : Byte) : Word :=
  serialSteps 8 (crc ^^^ byte.setWidth 16)

end Sys2Proof.Machine
end

