-- ==== Sys2Proof/Syntax.lean ====
section
/-! DEFINITION. The commands, one constructor for each row of `opcode_table.json` (`30_encoding.md` rules R43, R44, R45). -/

namespace Sys2Proof

/-- The seed-select bit S of a command word (`30_encoding.md` rules R42, R44). -/
inductive SeedSel where
  /-- S = 0: the defaulted argument is given (folds: `ACC`; INIT: the operand). -/
  | given
  /-- S = 1: the defaulted argument is omitted and takes 0xFFFF. -/
  | omitted
deriving DecidableEq, Repr

/-- The seven commands (rule R43) with the operands of rule R45. -/
inductive Instr where
  /-- INIT, OP 0x0 (rule R70). With S = 1 there is no operand: a well-formed term then carries 0. -/
  | init (sel : SeedSel) (seed : Word)
  /-- FOLD_BYTE, OP 0x1 (rule R71). -/
  | foldByte (sel : SeedSel) (value : Byte)
  /-- FOLD_BYTES, OP 0x2 (rule R80). -/
  | foldBytes (sel : SeedSel) (ptr : Addr) (len : Len)
  /-- FOLD_TEXT, OP 0x3 (rule R81). -/
  | foldText (sel : SeedSel) (ptr : Addr)
  /-- FOLD_SCALAR16, OP 0x4 (rule R90). -/
  | foldScalar16 (sel : SeedSel) (value : BitVec 16)
  /-- FOLD_SCALAR32, OP 0x5 (rule R91). -/
  | foldScalar32 (sel : SeedSel) (value : BitVec 32)
  /-- FOLD_SCALAR64, OP 0x6 (rule R92). -/
  | foldScalar64 (sel : SeedSel) (value : BitVec 64)
deriving DecidableEq, Repr

/-- Why a command word is reserved (`30_encoding.md` rule R47). -/
inductive DecodeError where
  /-- `RSV` is not 0b000. -/
  | rsvNotZero (rsv : BitVec 3)
  /-- `RSV` is 0 and `OP` is in 0x7 to 0xF. -/
  | opReserved (op : BitVec 4)
deriving DecidableEq, Repr

end Sys2Proof
end

