-- ==== Sys2Proof/WellFormed.lean ====
section
/-! DEFINITION. Which terms stand for a command an assembler writes (`30_encoding.md` rules R45, R46). The operand widths are
in the types; the one thing left to check is that INIT with S = 1, which has no operand, carries none. -/

namespace Sys2Proof

/-- `INIT` with S = 1 has no operand (rules R45, R46, R50): the unused seed is written 0. Every other term is well formed. -/
def Instr.wellFormed : Instr → Bool
  | .init .omitted seed => seed == 0#16
  | .init .given _ => true
  | .foldByte _ _ => true
  | .foldBytes _ _ _ => true
  | .foldText _ _ => true
  | .foldScalar16 _ _ => true
  | .foldScalar32 _ _ => true
  | .foldScalar64 _ _ => true

end Sys2Proof
end

