-- ==== Sys2Proof/Decode.lean ====
section
/-! DEFINITION. Decoding and encoding of the 72-bit command word (`30_encoding.md` rules R42 to R47, R55): total, and rejecting
a reserved word by name. -/

namespace Sys2Proof

/-! ### The four fields of a command word (rule R42) -/

/-- `S` = `w[71]`. -/
def fieldS (w : CmdWord) : BitVec 1 := w.extractLsb' 71 1

/-- `RSV` = `w[70:68]`. -/
def fieldRsv (w : CmdWord) : BitVec 3 := w.extractLsb' 68 3

/-- `OP` = `w[67:64]`. -/
def fieldOp (w : CmdWord) : BitVec 4 := w.extractLsb' 64 4

/-- `OPERAND` = `w[63:0]`. -/
def fieldOperand (w : CmdWord) : BitVec 64 := w.extractLsb' 0 64

/-- A command word from its four fields, `S` highest (rule R42). -/
def cmdWord (s : BitVec 1) (rsv : BitVec 3) (op : BitVec 4) (operand : BitVec 64) : CmdWord :=
  s ++ rsv ++ op ++ operand

/-- The S bit read as the choice it makes (rule R44). -/
def seedSelOf (s : BitVec 1) : SeedSel :=
  if s = 1#1 then .omitted else .given

/-- The S bit of a choice (rule R44). -/
def SeedSel.bit : SeedSel → BitVec 1
  | .given => 0#1
  | .omitted => 1#1

/-! ### Decoding (rules R43, R45, R46, R47, R55) -/

/-- The operand of INIT: `OPERAND[15:0]` with S = 0, none with S = 1 (rule R45). -/
def initSeed (sel : SeedSel) (operand : BitVec 64) : Word :=
  match sel with
  | .given => operand.extractLsb' 0 16
  | .omitted => 0#16

/-- The command of an `OP` with its operands (rules R43, R45); bits of `OPERAND` not named are ignored (rule R46). -/
def decodeOp (sel : SeedSel) (op : BitVec 4) (operand : BitVec 64) : Except DecodeError Instr :=
  match op.toNat with
  | 0 => .ok (.init sel (initSeed sel operand))
  | 1 => .ok (.foldByte sel (operand.extractLsb' 0 8))
  | 2 => .ok (.foldBytes sel (operand.extractLsb' 0 32) (operand.extractLsb' 32 32))
  | 3 => .ok (.foldText sel (operand.extractLsb' 0 32))
  | 4 => .ok (.foldScalar16 sel (operand.extractLsb' 0 16))
  | 5 => .ok (.foldScalar32 sel (operand.extractLsb' 0 32))
  | 6 => .ok (.foldScalar64 sel operand)
  | _ => .error (.opReserved op)

/-- Rule R55: `RSV` first, then `OP`. -/
def decode (w : CmdWord) : Except DecodeError Instr :=
  if fieldRsv w = 0#3 then decodeOp (seedSelOf (fieldS w)) (fieldOp w) (fieldOperand w)
  else .error (.rsvNotZero (fieldRsv w))

/-! ### Encoding (rules R42, R43, R45, R50): unused operand bits are written 0 (rule R46) -/

/-- `{S, 000, OP, OPERAND}`. -/
def encode : Instr → CmdWord
  | .init .given seed => cmdWord 0#1 0#3 0x0#4 (seed.setWidth 64)
  | .init .omitted _ => cmdWord 1#1 0#3 0x0#4 0#64
  | .foldByte sel value => cmdWord sel.bit 0#3 0x1#4 (value.setWidth 64)
  | .foldBytes sel ptr len => cmdWord sel.bit 0#3 0x2#4 (len ++ ptr)
  | .foldText sel ptr => cmdWord sel.bit 0#3 0x3#4 (ptr.setWidth 64)
  | .foldScalar16 sel value => cmdWord sel.bit 0#3 0x4#4 (value.setWidth 64)
  | .foldScalar32 sel value => cmdWord sel.bit 0#3 0x5#4 (value.setWidth 64)
  | .foldScalar64 sel value => cmdWord sel.bit 0#3 0x6#4 value

/-! ### The table's numbering -/

/-- The 72-bit command word whose bits are those of `w` below `nbits`, every bit above being 0; none if `w` has a bit beyond
bit 71, where no command word has one (rule R42: one length). The opcode table numbers a row's bits as rule R42 does. -/
def tableWord (nbits w : Nat) : Option CmdWord :=
  if w % 2 ^ nbits < 2 ^ 72 then some (BitVec.ofNat 72 (w % 2 ^ nbits)) else none

/-- What the decoder reads from a word numbered as `opcode_table.json` numbers it. -/
def decodeTableWord (nbits w : Nat) : Option Instr :=
  match tableWord nbits w with
  | none => none
  | some word =>
    match decode word with
    | .ok i => some i
    | .error _ => none

end Sys2Proof
end

