-- ==== Sys2Proof/Machine/State.lean ====
section
/-! DEFINITION. The machine's state as plain data, the reasons a step can stop, and the state after reset
(`10_state.md`, `20_memory.md` rule R20, `30_encoding.md` rules R40, R41, `70_reset_and_hazards.md` rule R121). -/

namespace Sys2Proof.Machine

/-- The content of `ACC` (`10_state.md` rule R10: "In the model `ACC` is either "no value" or a 16-bit value"). The case
`noValue` is the spec's own reset state (rules R17, R121; log 1). -/
inductive Acc where
  /-- "No value": the state after reset only (rule R17). -/
  | noValue
  /-- A 16-bit checksum; every value is legal (rule R10). -/
  | value (v : Word)
deriving DecidableEq, Repr

/-- The source memory (`20_memory.md` rule R20): a partial map from 32-bit addresses to bytes, held as (address, byte) pairs
with strictly rising addresses. An address not listed is outside the domain: a read of it has no result (rule R30; log 6). -/
abbrev Memory := List Host.Cell

/-- A write of the platform that lands while a command is in progress (`20_memory.md` rule R35, U6): the command's reads see
it from read number `visibleFrom` (0 is the first read) on. MODEL's own data (log 7). -/
structure RaceWrite where
  visibleFrom : Nat
  addr : Addr
  byte : Byte
deriving DecidableEq, Repr

/-- What the outside does to the hardware at its ports and to the source memory (`30_encoding.md` rule R40; log 3). -/
inductive HostEvent where
  /-- A command word is presented at CMD while no command is in progress, and is performed to its response (rules R40, R124).
  `race` lists the writes other agents make meanwhile; it is empty for a host that keeps rule R125. -/
  | command (w : CmdWord) (race : List RaceWrite)
  /-- A command word is accepted, and RESET is asserted before its response, after `n` of its reads (rules R120, R123, U7; log 8).
  This always goes on, also from a command that would be stuck or has no end. -/
  | commandReset (w : CmdWord) (race : List RaceWrite) (n : Nat)
  /-- RESET while no command is in progress (rule R120). Power-on is one of these. -/
  | reset
  /-- The host writes a cell of its memory (rules R20, R122, R125). -/
  | write (addr : Addr) (byte : Byte)
  /-- The platform withdraws an address from what the hardware may read (rules R20, R28). -/
  | withdraw (addr : Addr)
deriving DecidableEq, Repr

/-- Everything the spec gives the machine, and the outside's part in its steps. -/
structure State where
  /-- `ACC` (rule R10). -/
  acc : Acc
  /-- The RSP port: the response to the command last performed, none after reset (rules R41, R121; log 4). -/
  rsp : Option Word
  /-- The MEM port: the addresses read by the command last performed, first read first (rules R16, R27; log 5). -/
  reads : List Nat
  /-- The source memory (rule R20). -/
  mem : Memory
  /-- The platform's writes in flight while a command reads (rule R35; log 7). The MODEL's own field. -/
  race : List RaceWrite
  /-- What the outside does next, first event first (rules R12, R19; log 3). The MODEL's own field. -/
  input : List HostEvent
deriving DecidableEq, Repr

/-- Why a step has no next state although the command has a meaning. -/
inductive Fault where
  /-- Raised by FOLD_BYTES and FOLD_TEXT at a read of an address outside the domain of the source memory (rule R30, U5): the
  command is stuck there, never responds and never writes `ACC`. `made` are the reads made before it. Safe: the machine stops
  where the hardware waits for a reset; the reset itself is the event `HostEvent.commandReset` (log 9). -/
  | stuckRead (made : List Nat) (addr : Nat)
deriving DecidableEq, Repr

/-- Why a command has no meaning. -/
inductive Refusal where
  /-- Raised by the arm of `exec` of an instruction that has no meaning yet; no arm raises it now. Safe. -/
  | notModelled (mnemonic : String)
  /-- Raised by every command with S = 0 but INIT while `ACC` holds no value: the spec states this stop (`10_state.md` rule R17: "a
  model refuses it"; `60_exceptions.md` rules R100, R104; `93_implementation_defined.md` U1: "The step relation has no step";
  `92_eei_decisions.md` D15; `95_test_vectors.md` section 3.5, "What a model must refuse"). Safe: no claim can rest on what a real part would fold there (log 1). -/
  | accNoValue
  /-- Raised by the step that takes a reserved word from CMD (rule R47, U2: "a model refuses it"). Safe (log 10). -/
  | reservedWord (e : DecodeError)
  /-- Raised by FOLD_BYTES with a non-null pointer and `ptr + len` greater than 2^32 (rule R29, U3). Safe. -/
  | bufferWraps
  /-- Raised by FOLD_TEXT with a non-null pointer when no address up to 0xFFFFFFFF holds 0x00, all being readable
  (rules R29, R81 (d), U4). Safe. -/
  | textUnterminated
deriving DecidableEq, Repr

/-- The outcome of a command or a step. -/
abbrev Result := Host.Outcome State Fault Refusal

/-- The reset state (`70_reset_and_hazards.md` rule R121): `ACC` has no value, no response is pending, no read is outstanding,
no command is in progress. The memory is the host's and is not touched by reset; here, where there is no earlier state, it
lists nothing (log 6), and nothing is presented at the ports (log 3). -/
def State.reset : State where
  acc := .noValue
  rsp := none
  reads := []
  mem := []
  race := []
  input := []

end Sys2Proof.Machine
end

