-- ==== Sys2Proof/Machine/Ops.lean ====
section
/-! DEFINITION. The named operations over the memory, `ACC` and the ports. There is no operation that takes an exception or
returns from one: the hardware has no exception, interrupt or trap (`60_exceptions.md` rules R100, R103, R105, R106). -/

namespace Sys2Proof.Machine

/-! ### The source memory (`20_memory.md` rules R20, R26, R30) -/

/-- The canonical form: strictly rising addresses, each a 32-bit address. -/
abbrev Memory.wf (m : Memory) : Prop :=
  m.Pairwise (fun c d => c.1 < d.1) ∧ ∀ c ∈ m, c.1 < Config.addrLimit

/-- The byte at an address, none outside the domain (rules R20, R30). -/
def Memory.read : Memory → Nat → Option Byte
  | [], _ => none
  | c :: m, a => if c.1 = a then some c.2 else Memory.read m a

/-- The cell at an address holds a byte from now on; done by the host or another agent, never by the hardware (rules R20, R21).
MODEL's choice (DESIGN CHOICE, log 17): an address outside the domain is in it from the write on, so that the hardware can read
it. Rules R20 and R28 leave the domain to the platform and do not speak of such a write. -/
def Memory.write : Memory → Nat → Byte → Memory
  | [], a, b => [(a, b)]
  | c :: m, a, b =>
    if a < c.1 then (a, b) :: c :: m
    else if a = c.1 then (a, b) :: m
    else c :: Memory.write m a b

/-- An address leaves the domain; done by the platform (rules R20, R28). -/
def Memory.withdraw (m : Memory) (a : Nat) : Memory :=
  m.filter (fun c => c.1 ≠ a)

/-- The writes of a list, made in its order. -/
def Memory.land (m : Memory) (ws : List RaceWrite) : Memory :=
  ws.foldl (fun m w => m.write w.addr.toNat w.byte) m

/-! ### The MEM port (`20_memory.md` rules R26, R27, R32, R35) -/

/-- The memory as read number `k` of the command in progress finds it (rule R32 (e)). With no write in flight it is the
memory; a racing write is seen from the read it names on (rule R35, U6). MODEL's choice (DESIGN CHOICE, log 17): a racing write
to an address outside the domain makes it readable from that read on, in mid-command, so that a read there gives the byte and the
command is not stuck. Rules R20, R28 and R30 leave the domain to the platform and do not speak of such a write. -/
def State.memAt (s : State) (k : Nat) : Memory :=
  s.mem.land (s.race.filter (fun w => w.visibleFrom ≤ k))

/-- `MemRead(a, 1)` as read number `k` of the command in progress: a byte, or no result (rules R26, R30). -/
def State.memRead (s : State) (k a : Nat) : Option Byte :=
  (s.memAt k).read a

/-! ### `ACC` and the RSP port (`10_state.md` rules R10, R11, `30_encoding.md` rule R41) -/

/-- The checksum in `ACC`, none while it holds no value. -/
def Acc.value? : Acc → Option Word
  | .noValue => none
  | .value v => some v

/-- The end of a command that completes: `ACC <- r`, `RSP <- r`, after the reads `rs` (rules R11, R41, R105: `ACC` is written
once, with the final value). -/
def State.respond (s : State) (r : Word) (rs : List Nat) : State :=
  { s with acc := .value r, rsp := some r, reads := rs }

/-! ### RESET (`70_reset_and_hazards.md` rules R120, R121, R123) -/

/-- The hardware in its reset state, the memory and the outside's plans as they were (rule R121). -/
def State.afterReset (s : State) : State :=
  { State.reset with mem := s.mem, input := s.input }

/-- The command in progress is over: the writes that raced with it have all landed, none is in flight (rule R35). -/
def State.settle (s : State) : State :=
  { s with mem := s.mem.land s.race, race := [] }

end Sys2Proof.Machine
end

