-- ==== Sys2Proof/Machine/Operands.lean ====
section
/-! DEFINITION. The operand forms: the seed-select bit, the bytes of a scalar, the one addressing mode and the two forms of
a run of reads (`30_encoding.md` rules R44, R45, `20_memory.md` rules R24, R27, R29, R30, `42_fold_buffer.md` rule R82). -/

namespace Sys2Proof.Machine

/-- `crc_in` of a fold command (rule R44): `ACC` with S = 0, which may hold no value (rule R17); 0xFFFF with S = 1. -/
def crcIn (sel : SeedSel) (s : State) : Option Word :=
  match sel with
  | .given => s.acc.value?
  | .omitted => some Config.defaultSeed

/-- The rest of a fold command, given its `crc_in`; without one the command has no meaning and a model refuses
it (rules R17, R100, U1). This comes before
every other check (rule R104). -/
def withCrcIn (sel : SeedSel) (s : State) (k : Word → Result) : Result :=
  match crcIn sel s with
  | none => .refused .accNoValue
  | some crc => k crc

/-- Byte `k` of a scalar is `v[8k+7 : 8k]` (rule R24). -/
def byteOf {w : Nat} (v : BitVec w) (k : Nat) : Byte := v.extractLsb' (8 * k) 8

/-- The `n` low bytes of a scalar, least significant first (rules R23, R24). -/
def leBytes {w : Nat} (n : Nat) (v : BitVec w) : List Byte :=
  (List.range n).map (byteOf v)

/-- `EA(i) = ptr + i`, in the unbounded integers (rule R82). -/
def ea (ptr : Addr) (i : Nat) : Nat := ptr.toNat + i

/-- How a run of reads ends. -/
inductive RunEnd where
  /-- Every byte asked for was read. -/
  | complete
  /-- The read of `addr` has no result (rule R30). -/
  | stuck (addr : Nat)
  /-- No terminator below the top of the address space (rule R81 (d)). -/
  | unterminated
deriving DecidableEq, Repr

/-- A run of reads: the bytes to fold, in order; the reads that gave a value, in order; how it ended. -/
structure Run where
  bytes : List Byte
  reads : List Nat
  ending : RunEnd
deriving DecidableEq, Repr

/-- A byte read at `a` and to be folded, then the rest of the run. -/
def Run.cons (a : Nat) (b : Byte) (r : Run) : Run :=
  { r with bytes := b :: r.bytes, reads := a :: r.reads }

/-- The reads of FOLD_BYTES: `n` cells from index `i` on, ascending, each once (rules R27, R80). -/
def readCells (s : State) (ptr : Addr) : (n i : Nat) → Run
  | 0, _ => ⟨[], [], .complete⟩
  | n + 1, i =>
    match s.memRead i (ea ptr i) with
    | none => ⟨[], [], .stuck (ea ptr i)⟩
    | some b => (readCells s ptr n (i + 1)).cons (ea ptr i) b

/-- The reads of FOLD_TEXT: one pass from index `i` on, up to the first 0x00, which is read and not folded (rules R27, R81).
`fuel` is how many addresses are left below 2^32: the scan does not wrap (rule R29). -/
def readText (s : State) (ptr : Addr) : (fuel i : Nat) → Run
  | 0, _ => ⟨[], [], .unterminated⟩
  | fuel + 1, i =>
    match s.memRead i (ea ptr i) with
    | none => ⟨[], [], .stuck (ea ptr i)⟩
    | some b =>
      if b = 0#8 then ⟨[], [ea ptr i], .complete⟩
      else (readText s ptr fuel (i + 1)).cons (ea ptr i) b

/-- The end of a command that read memory: the response when the run is complete, else the stop the run met
(rules R30, R80, R81). -/
def finishRun (s : State) (crc : Word) (r : Run) : Result :=
  match r.ending with
  | .complete => .next (s.respond (foldList crc r.bytes) r.reads)
  | .stuck a => .fault (.stuckRead r.reads a)
  | .unterminated => .refused .textUnterminated

/-! ### The reads of a command that does not end by itself (`70_reset_and_hazards.md` rule R123) -/

/-- The reads a command makes until it ends or comes to its stop, in order (rule R27). They do not depend on `ACC` or S. A
FOLD_BYTES that would pass the top of the address space has only the cells below it to read (rule R29; log 8); a FOLD_TEXT
without terminator reads up to the last address (rules R41, R81 (d)). The other commands read nothing (rule R22). -/
def commandReads (i : Instr) (s : State) : List Nat :=
  match i with
  | .init _ _ => []
  | .foldByte _ _ => []
  | .foldBytes _ ptr len =>
    if ptr = Config.nullAddr then [] else (readCells s ptr (min len.toNat (Config.addrLimit - ptr.toNat)) 0).reads
  | .foldText _ ptr =>
    if ptr = Config.nullAddr then [] else (readText s ptr (Config.addrLimit - ptr.toNat) 0).reads
  | .foldScalar16 _ _ => []
  | .foldScalar32 _ _ => []
  | .foldScalar64 _ _ => []

/-- The reads of a command word; a reserved word is neither FOLD_BYTES nor FOLD_TEXT and reads nothing (rule R22). -/
def wordReads (w : CmdWord) (s : State) : List Nat :=
  match decode w with
  | .ok i => commandReads i s
  | .error _ => []

end Sys2Proof.Machine
end

