-- ==== Sys2Proof/Machine/FoldBuffer.lean ====
section
/-! DEFINITION. FOLD_BYTES and FOLD_TEXT (`42_fold_buffer.md` rules R80, R81): the two commands that read the source memory. -/

namespace Sys2Proof.Machine

/-- FOLD_BYTES (rule R80). The null test comes before any address is formed (rules R80 (b), R104), then the bound
(rules R29, R80 (f)), then the reads. -/
def execFoldBytes (sel : SeedSel) (ptr : Addr) (len : Len) (s : State) : Result :=
  withCrcIn sel s fun crc =>
    if ptr = Config.nullAddr then .next (s.respond crc [])
    else if Config.addrLimit < ptr.toNat + len.toNat then .refused .bufferWraps
    else finishRun s crc (readCells s ptr len.toNat 0)

/-- FOLD_TEXT (rule R81): a null pointer leaves `crc_in`; else one pass up to the terminator, below 2^32. -/
def execFoldText (sel : SeedSel) (ptr : Addr) (s : State) : Result :=
  withCrcIn sel s fun crc =>
    if ptr = Config.nullAddr then .next (s.respond crc [])
    else finishRun s crc (readText s ptr (Config.addrLimit - ptr.toNat) 0)

end Sys2Proof.Machine
end

