-- ==== Sys2Proof/Machine/FoldScalar.lean ====
section
/-! DEFINITION. FOLD_SCALAR16, FOLD_SCALAR32 and FOLD_SCALAR64 (`43_fold_scalar.md` rules R90 to R92): a scalar by value, folded
least significant byte first (`20_memory.md` rule R24); floating-point operands are bit patterns (rule R94). -/

namespace Sys2Proof.Machine

/-- FOLD_SCALAR16 (rule R90): 2 bytes. -/
def execFoldScalar16 (sel : SeedSel) (value : BitVec 16) (s : State) : Result :=
  withCrcIn sel s fun crc => .next (s.respond (foldList crc (leBytes 2 value)) [])

/-- FOLD_SCALAR32 (rule R91): 4 bytes. -/
def execFoldScalar32 (sel : SeedSel) (value : BitVec 32) (s : State) : Result :=
  withCrcIn sel s fun crc => .next (s.respond (foldList crc (leBytes 4 value)) [])

/-- FOLD_SCALAR64 (rule R92): 8 bytes. -/
def execFoldScalar64 (sel : SeedSel) (value : BitVec 64) (s : State) : Result :=
  withCrcIn sel s fun crc => .next (s.respond (foldList crc (leBytes 8 value)) [])

end Sys2Proof.Machine
end

