-- ==== Sys2Proof/Machine/InitFoldByte.lean ====
section
/-! DEFINITION. INIT and FOLD_BYTE (`41_init_fold_byte.md` rules R70, R71): one small operand by value, no memory access. -/

namespace Sys2Proof.Machine

/-- INIT (rule R70): `ACC <- seed`, the operand with S = 0 and 0xFFFF with S = 1. It does not read `ACC`. -/
def execInit (sel : SeedSel) (seed : Word) (s : State) : Result :=
  match sel with
  | .given => .next (s.respond seed [])
  | .omitted => .next (s.respond Config.defaultSeed [])

/-- FOLD_BYTE (rule R71): `ACC <- Update(crc_in, value)`. -/
def execFoldByte (sel : SeedSel) (value : Byte) (s : State) : Result :=
  withCrcIn sel s fun crc => .next (s.respond (update crc value) [])

end Sys2Proof.Machine
end

