-- ==== Sys2Proof/Machine/Dispatch.lean ====
section
/-! DEFINITION. The meaning of each command, one arm per constructor (`30_encoding.md` rule R43). -/

namespace Sys2Proof.Machine

def exec (i : Instr) (s : State) : Host.Outcome State Fault Refusal :=
  match i with
  | .init sel seed => Sys2Proof.Machine.execInit sel seed s
  | .foldByte sel value => Sys2Proof.Machine.execFoldByte sel value s
  | .foldBytes sel ptr len => Sys2Proof.Machine.execFoldBytes sel ptr len s
  | .foldText sel ptr => Sys2Proof.Machine.execFoldText sel ptr s
  | .foldScalar16 sel value => Sys2Proof.Machine.execFoldScalar16 sel value s
  | .foldScalar32 sel value => Sys2Proof.Machine.execFoldScalar32 sel value s
  | .foldScalar64 sel value => Sys2Proof.Machine.execFoldScalar64 sel value s

end Sys2Proof.Machine
end

