-- ==== Sys2Proof/Machine/Port.lean ====
section
/-! DEFINITION. What one event at the ports does: a command taken from CMD, a reset, a write of the host
(`30_encoding.md` rules R40, R41, R47, R55, `70_reset_and_hazards.md` rules R120 to R125). -/

namespace Sys2Proof.Machine

/-- A command that completed: the writes that raced with it have landed. The other outcomes as they are. -/
def settleResult : Result → Result
  | .next t => .next t.settle
  | .fault f => .fault f
  | .refused r => .refused r

/-- A word accepted at CMD, with RESET asserted after `n` of the reads it makes and before its response (rules R104, R120, R123,
U7). Whatever the word, the hardware is in the reset state at once: no response, `ACC` without value, the reads made stay made,
the remaining ones are not made. So ends a command in progress, a stuck one, one that never completes, and one that without the
reset has no meaning (log 8). -/
def abandonCommand (w : CmdWord) (n : Nat) (s : State) : Result :=
  .next { s.settle.afterReset with reads := (wordReads w s).take n }

/-- The outcome of taking a word from CMD: decoded (rule R55) and performed, or refused as reserved (rule R47, U2). -/
def performWord (w : CmdWord) (s : State) : Result :=
  match decode w with
  | .ok i => exec i s
  | .error e => .refused (.reservedWord e)

/-- One event. `s` is the state with the event already taken from `input`. -/
def applyEvent (e : HostEvent) (s : State) : Result :=
  match e with
  | .command w race => settleResult (performWord w { s with race := race })
  | .commandReset w race n => abandonCommand w n { s with race := race }
  | .reset => .next s.afterReset
  | .write a b => .next { s with mem := s.mem.write a.toNat b }
  | .withdraw a => .next { s with mem := s.mem.withdraw a.toNat }

/-- The event the outside makes next; with none, the hardware holds its state and does nothing (`60_exceptions.md`
rule R110). -/
def stepInput (s : State) : Result :=
  match s.input with
  | [] => .next s
  | e :: rest => applyEvent e { s with input := rest }

/-- The outside presents `w` at CMD next, with no racing write. -/
def State.present (s : State) (w : CmdWord) : State :=
  { s with input := .command w [] :: s.input }

end Sys2Proof.Machine
end

