-- ==== Sys2Proof/Machine/Step.lean ====
section
/-! DEFINITION. One step of the machine: one event at its ports; a command is one step (`10_state.md` rule R16). -/

namespace Sys2Proof.Machine

/-- One step. -/
def step (s : State) : Host.Outcome State Fault Refusal := stepInput s

/-- `s` with the command word `w` (its bits below `nbits`, numbered as the opcode table numbers them) presented at CMD as the
next thing the outside does: commands come from the host, never from memory (`10_state.md` rule R12; log 3). A number with a
bit beyond bit 71 is no command word, and nothing is presented. -/
def State.withFetchWord (s : State) (nbits w : Nat) : State :=
  match tableWord nbits w with
  | some word => s.present word
  | none => s

end Sys2Proof.Machine
end

