-- ==== Sys2Proof/Machine/FloatImage.lean ====
section
/-! DEFINITION. The storage image of a float value: the IEEE-754 binary32 and binary64 interchange encodings (`30_encoding.md`
rule R53, `43_fold_scalar.md` rule R94, G5, N22; log 14). The assembler alone uses it: the hardware folds bits and knows no float. -/

namespace Sys2Proof.Machine

/-- A float value (rule R53; the kinds of rule R94 (a) to (c)). -/
inductive FloatValue where
  /-- The number `mantissa * 2^exponent`, negated with `neg`; mantissa 0 is the zero with that sign. -/
  | finite (neg : Bool) (mantissa : Nat) (exponent : Int)
  | infinity (neg : Bool)
  /-- A NaN with its sign and what its pattern carries beside it (quiet bit and payload, rule R94 (a)). -/
  | nan (neg : Bool) (carried : Nat)
deriving DecidableEq, Repr

/-- How many bits the exponent and the fraction of an interchange encoding have; the sign has one. -/
structure FloatFormat where
  exponentBits : Nat
  fractionBits : Nat
deriving DecidableEq, Repr

/-- The three fields of an image as numbers. -/
structure FloatFields where
  neg : Bool
  exponent : Nat
  fraction : Nat
deriving DecidableEq, Repr

/-- binary32: 1 + 8 + 23 bits. -/
def binary32 : FloatFormat := ⟨8, 23⟩

/-- binary64: 1 + 11 + 52 bits. -/
def binary64 : FloatFormat := ⟨11, 52⟩

/-- What is added to the exponent of a number to give the exponent field. -/
def FloatFormat.bias (F : FloatFormat) : Int := 2 ^ (F.exponentBits - 1) - 1

/-- The exponent of the smallest normal number; subnormal numbers have it too. -/
def FloatFormat.minExponent (F : FloatFormat) : Int := 1 - F.bias

/-- The exponent field that infinities and NaNs have: all ones. -/
def FloatFormat.topField (F : FloatFormat) : Nat := 2 ^ F.exponentBits - 1

/-- `m * 2^s` where that is whole. -/
def scaleWhole (m : Nat) : Int → Option Nat
  | .ofNat k => some (m * 2 ^ k)
  | .negSucc k => if m % 2 ^ (k + 1) = 0 then some (m / 2 ^ (k + 1)) else none

/-- The fields of the number `m * 2^e`: a normal number without its leading 1, a subnormal number or zero with exponent field 0;
none where the format has no such number (log 14: no rounding). -/
def FloatFormat.encodeFinite (F : FloatFormat) (neg : Bool) (m : Nat) (e : Int) : Option FloatFields :=
  if m = 0 then some ⟨neg, 0, 0⟩
  else if F.bias < m.log2 + e then none
  else if F.minExponent ≤ m.log2 + e then
    (scaleWhole m (F.fractionBits - m.log2)).map fun significand =>
      ⟨neg, (m.log2 + e + F.bias).toNat, significand - 2 ^ F.fractionBits⟩
  else (scaleWhole m (e - (F.minExponent - F.fractionBits))).map fun fraction => ⟨neg, 0, fraction⟩

/-- The fields of a float value; none where the format has no such value. -/
def FloatFormat.encode (F : FloatFormat) : FloatValue → Option FloatFields
  | .finite neg m e => F.encodeFinite neg m e
  | .infinity neg => some ⟨neg, F.topField, 0⟩
  | .nan neg carried =>
    if 0 < carried ∧ carried < 2 ^ F.fractionBits then some ⟨neg, F.topField, carried⟩ else none

/-- The value that fields stand for. -/
def FloatFormat.decode (F : FloatFormat) (x : FloatFields) : FloatValue :=
  if x.exponent = F.topField then
    if x.fraction = 0 then .infinity x.neg else .nan x.neg x.fraction
  else if x.exponent = 0 then .finite x.neg x.fraction (F.minExponent - F.fractionBits)
  else .finite x.neg (2 ^ F.fractionBits + x.fraction) (x.exponent - F.bias - F.fractionBits)

/-- The fields of a binary32 image, sign in the top bit (rule R94 (d), G5). -/
structure Binary32 where
  sign : BitVec 1
  exponent : BitVec 8
  fraction : BitVec 23
deriving DecidableEq, Repr

/-- The fields of a binary64 image, sign in the top bit (rule R94 (d), G5). -/
structure Binary64 where
  sign : BitVec 1
  exponent : BitVec 11
  fraction : BitVec 52
deriving DecidableEq, Repr

/-- The 32 bits of an image. -/
def Binary32.bits (v : Binary32) : BitVec 32 := v.sign ++ v.exponent ++ v.fraction

/-- The 64 bits of an image. -/
def Binary64.bits (v : Binary64) : BitVec 64 := v.sign ++ v.exponent ++ v.fraction

/-- Fields as a binary32 image. -/
def Binary32.ofFields (x : FloatFields) : Binary32 := ⟨.ofBool x.neg, .ofNat 8 x.exponent, .ofNat 23 x.fraction⟩

/-- Fields as a binary64 image. -/
def Binary64.ofFields (x : FloatFields) : Binary64 := ⟨.ofBool x.neg, .ofNat 11 x.exponent, .ofNat 52 x.fraction⟩

/-- The value a binary32 image stands for. -/
def Binary32.value (v : Binary32) : FloatValue :=
  binary32.decode ⟨v.sign == 1#1, v.exponent.toNat, v.fraction.toNat⟩

/-- The value a binary64 image stands for. -/
def Binary64.value (v : Binary64) : FloatValue :=
  binary64.decode ⟨v.sign == 1#1, v.exponent.toNat, v.fraction.toNat⟩

/-- `bits32(v)` of a float value (rule R53); none where `v` is no binary32 value. -/
def bits32 (v : FloatValue) : Option (BitVec 32) := (binary32.encode v).map fun x => (Binary32.ofFields x).bits

/-- `bits64(v)` of a float value (rule R53); none where `v` is no binary64 value. -/
def bits64 (v : FloatValue) : Option (BitVec 64) := (binary64.encode v).map fun x => (Binary64.ofFields x).bits

end Sys2Proof.Machine
end

