-- ==== Sys2Proof/Machine/Assembler.lean ====
section
/-! DEFINITION. The assembler's commands and aliases (`30_encoding.md` rules R50, R52, R53, `43_fold_scalar.md` rule R95). None of
it touches the hardware: an alias is another name of a command. -/

namespace Sys2Proof.Machine

/-- A pointer operand; `NULL` may be written for the pointer 0 (rule R50). -/
inductive PtrOperand where
  | null
  | addr (a : Addr)
deriving DecidableEq, Repr

/-- One line of assembler: the commands of rule R50 (the `.D` suffix is `SeedSel.omitted`) and the aliases of rule R52. -/
inductive AsmLine where
  /-- `INIT` or `INIT imm16`. -/
  | init (seed : Option Word)
  | foldByte (d : SeedSel) (value : Byte)
  | foldBytes (d : SeedSel) (ptr : PtrOperand) (len : Len)
  | foldText (d : SeedSel) (ptr : PtrOperand)
  | foldScalar16 (d : SeedSel) (value : BitVec 16)
  | foldScalar32 (d : SeedSel) (value : BitVec 32)
  | foldScalar64 (d : SeedSel) (value : BitVec 64)
  | foldU8 (d : SeedSel) (value : Byte)
  | foldI8 (d : SeedSel) (value : Int)
  | foldChar (d : SeedSel) (value : Char)
  | foldU16 (d : SeedSel) (value : BitVec 16)
  | foldI16 (d : SeedSel) (value : Int)
  | foldU32 (d : SeedSel) (value : BitVec 32)
  | foldI32 (d : SeedSel) (value : Int)
  | foldF32 (d : SeedSel) (value : FloatValue)
  | foldU64 (d : SeedSel) (value : BitVec 64)
  | foldI64 (d : SeedSel) (value : Int)
  | foldF64 (d : SeedSel) (value : FloatValue)
  | read (d : SeedSel)
deriving DecidableEq, Repr

/-- The address of a pointer operand. -/
def PtrOperand.toAddr : PtrOperand → Addr
  | .null => Config.nullAddr
  | .addr a => a

/-- `bitsN(v)` of a signed integer: two's complement (rule R53, G4). A number outside the type is no literal of it (log 14). -/
def signedBits (w : Nat) (v : Int) : Option (BitVec w) :=
  if -(2 : Int) ^ (w - 1) ≤ v ∧ v < (2 : Int) ^ (w - 1) then some (BitVec.ofInt w v) else none

/-- The command of an alias that exists only when the float width is the standard one (rules R52, R95). -/
def gated (present : Bool) (i : Option Instr) : Option Instr :=
  if present then i else none

/-- The command a line stands for, none where the line does not exist (rules R50, R52, R95). -/
def AsmLine.assemble : AsmLine → Option Instr
  | .init none => some (.init .omitted 0#16)
  | .init (some seed) => some (.init .given seed)
  | .foldByte d value => some (.foldByte d value)
  | .foldBytes d ptr len => some (.foldBytes d ptr.toAddr len)
  | .foldText d ptr => some (.foldText d ptr.toAddr)
  | .foldScalar16 d value => some (.foldScalar16 d value)
  | .foldScalar32 d value => some (.foldScalar32 d value)
  | .foldScalar64 d value => some (.foldScalar64 d value)
  | .foldU8 d value => some (.foldByte d value)
  | .foldI8 d value => (signedBits 8 value).map (.foldByte d)
  | .foldChar d value => (Config.charCode value).map (.foldByte d)
  | .foldU16 d value => some (.foldScalar16 d value)
  | .foldI16 d value => (signedBits 16 value).map (.foldScalar16 d)
  | .foldU32 d value => some (.foldScalar32 d value)
  | .foldI32 d value => (signedBits 32 value).map (.foldScalar32 d)
  | .foldF32 d value => gated Config.hasF32 ((bits32 value).map (.foldScalar32 d))
  | .foldU64 d value => some (.foldScalar64 d value)
  | .foldI64 d value => (signedBits 64 value).map (.foldScalar64 d)
  | .foldF64 d value => gated Config.hasF64 ((bits64 value).map (.foldScalar64 d))
  | .read d => some (.foldBytes d Config.nullAddr 0#32)

end Sys2Proof.Machine
end

