-- ==== Sys2Proof/Machine/Sequencer.lean ====
section
/-! DEFINITION. The SEQUENCER (`00_scope.md` rule R2, `10_state.md` rule R16, `30_encoding.md` rule R40): the loop inside one
command, one byte a tick, written as the pseudocode of rules R70 to R92 runs it. Its state is not architectural: it is created
when a command is accepted and gone at the response. `exec` gives the same command as one step (rule R16, decision D1). -/

namespace Sys2Proof.Machine

/-- The sequencing state of rule R16: the running checksum, the index of the next byte, and the reads made so far. The pointer
and the length are in `SeqSource`. -/
structure Sequencer where
  crc : Word
  index : Nat
  made : List Nat
deriving DecidableEq, Repr

/-- Where the command's bytes come from. -/
inductive SeqSource where
  /-- From the operand field (rules R22, R71, R90 to R92); no byte for INIT and for a null pointer. -/
  | operand (bytes : List Byte)
  /-- From `len` cells of the source memory (rule R80). -/
  | buffer (ptr : Addr) (len : Nat)
  /-- From the cells up to the first 0x00 (rule R81). -/
  | text (ptr : Addr)
deriving DecidableEq, Repr

/-- What one tick leads to. -/
inductive Tick where
  | running (q : Sequencer)
  | finished (q : Sequencer)
  | stuck (q : Sequencer) (addr : Nat)
  | unterminated
deriving DecidableEq, Repr

/-- One application of the kernel (rule R60). -/
def Sequencer.fold (q : Sequencer) (b : Byte) : Sequencer :=
  { q with crc := update q.crc b, index := q.index + 1 }

/-- One read at `a` that gave a value. -/
def Sequencer.note (q : Sequencer) (a : Nat) : Sequencer :=
  { q with made := q.made ++ [a] }

/-- One turn of the loop of a buffer command that has a byte to read. -/
def Sequencer.readTick (s : State) (q : Sequencer) (ptr : Addr) (stopAtZero : Bool) : Tick :=
  match s.memRead q.index (ea ptr q.index) with
  | none => .stuck q (ea ptr q.index)
  | some b =>
    if stopAtZero && b == 0#8 then .finished (q.note (ea ptr q.index))
    else .running ((q.note (ea ptr q.index)).fold b)

/-- One turn of the command's loop (rules R16, R27, R54). -/
def Sequencer.tick (s : State) (src : SeqSource) (q : Sequencer) : Tick :=
  match src with
  | .operand bytes =>
    match bytes[q.index]? with
    | none => .finished q
    | some b => .running (q.fold b)
  | .buffer ptr len => if q.index < len then q.readTick s ptr false else .finished q
  | .text ptr => if ea ptr q.index < Config.addrLimit then q.readTick s ptr true else .unterminated

/-- Up to `n` turns. -/
def Sequencer.run (s : State) (src : SeqSource) : Nat → Sequencer → Tick
  | 0, q => .running q
  | n + 1, q =>
    match q.tick s src with
    | .running q' => Sequencer.run s src n q'
    | .finished q' => .finished q'
    | .stuck q' a => .stuck q' a
    | .unterminated => .unterminated

/-- The checksum a command starts from: the seed for INIT (rule R70), `crc_in` for a fold (rule R44). -/
def startCrc (i : Instr) (s : State) : Option Word :=
  match i with
  | .init .given seed => some seed
  | .init .omitted _ => some Config.defaultSeed
  | .foldByte sel _ => crcIn sel s
  | .foldBytes sel _ _ => crcIn sel s
  | .foldText sel _ => crcIn sel s
  | .foldScalar16 sel _ => crcIn sel s
  | .foldScalar32 sel _ => crcIn sel s
  | .foldScalar64 sel _ => crcIn sel s

/-- The bytes a command folds; none for a buffer that would wrap, which is no buffer (rule R29). -/
def seqSource (i : Instr) : Option SeqSource :=
  match i with
  | .init _ _ => some (.operand [])
  | .foldByte _ value => some (.operand [value])
  | .foldBytes _ ptr len =>
    if ptr = Config.nullAddr then some (.operand [])
    else if Config.addrLimit < ptr.toNat + len.toNat then none
    else some (.buffer ptr len.toNat)
  | .foldText _ ptr => if ptr = Config.nullAddr then some (.operand []) else some (.text ptr)
  | .foldScalar16 _ value => some (.operand (leBytes 2 value))
  | .foldScalar32 _ value => some (.operand (leBytes 4 value))
  | .foldScalar64 _ value => some (.operand (leBytes 8 value))

/-- The sequencing state at the acceptance of a command that starts from `crc`. -/
def Sequencer.start (crc : Word) : Sequencer := ⟨crc, 0, []⟩

end Sys2Proof.Machine
end

