-- ==== Sys2Proof/Machine/Source.lean ====
section
/-! DEFINITION. The functional surface of the source as the spec quotes it (`30_encoding.md` rules R43, R51, `10_state.md` rule
R18): pure functions that take the checksum by value, and the commands each call is written as. The hardware does not use
this file; statements compare `exec` with it. -/

namespace Sys2Proof.Machine

/-- `fold_byte`: "single call to the byte kernel" (rule R71). -/
def sourceFoldByte (value : Byte) (crc : Word) : Word := update crc value

/-- The bytes of a buffer of `n` cells at address `a`; none if a cell is not readable. -/
def sourceBuffer (m : Memory) (a : Nat) : Nat → Option (List Byte)
  | 0 => some []
  | n + 1 =>
    match m.read a, sourceBuffer m (a + 1) n with
    | some b, some bs => some (b :: bs)
    | _, _ => none

/-- `fold_bytes`: "folds `length` bytes in order"; a null buffer returns `crc` unchanged (rule R80). None for an input that is
not well typed. -/
def sourceFoldBytes (m : Memory) (ptr : Addr) (n : Nat) (crc : Word) : Option Word :=
  if ptr = Config.nullAddr then some crc
  else (sourceBuffer m ptr.toNat n).map (fun bs => bs.foldl (fun c b => sourceFoldByte b c) crc)

/-- The length of a text "as measured by its terminator" (rule R81), within `fuel` cells. -/
def sourceTextLength (m : Memory) (a : Nat) : Nat → Option Nat
  | 0 => none
  | fuel + 1 =>
    match m.read a with
    | none => none
    | some b => if b = 0#8 then some 0 else (sourceTextLength m (a + 1) fuel).map (· + 1)

/-- `fold_text`: measures the text, then delegates to `fold_bytes`; a null input returns `crc` unchanged (rule R81). -/
def sourceFoldText (m : Memory) (ptr : Addr) (crc : Word) : Option Word :=
  if ptr = Config.nullAddr then some crc
  else (sourceTextLength m ptr.toNat (Config.addrLimit - ptr.toNat)).bind (fun n => sourceFoldBytes m ptr n crc)

/-- `fold_scalar` for a scalar of `n` bytes: a fold of its storage bytes in ascending address order (rules R23, R93). -/
def sourceFoldScalar {w : Nat} (n : Nat) (v : BitVec w) (crc : Word) : Word :=
  (leBytes n v).foldl (fun c b => sourceFoldByte b c) crc

/-- The `crc` argument of a call (rule R51): omitted, the value currently in `ACC`, or any explicit value. -/
inductive CrcArg where
  | omitted
  | running
  | explicit (s : Word)
deriving DecidableEq, Repr

/-- A call of the source's functional surface (rule R51). -/
inductive SourceCall where
  | init (seed : Option Word)
  | foldByte (value : Byte) (crc : CrcArg)
  | foldBytes (ptr : Addr) (n : Len) (crc : CrcArg)
  | foldText (ptr : Addr) (crc : CrcArg)
  | foldScalar16 (value : BitVec 16) (crc : CrcArg)
  | foldScalar32 (value : BitVec 32) (crc : CrcArg)
  | foldScalar64 (value : BitVec 64) (crc : CrcArg)
deriving DecidableEq, Repr

/-- The checksum a call gets, given the running one (none while there is none). -/
def CrcArg.value (running : Option Word) : CrcArg → Option Word
  | .omitted => some Config.defaultSeed
  | .running => running
  | .explicit s => some s

/-- The return value of a call; none where its input is not well typed. -/
def SourceCall.returns (m : Memory) (running : Option Word) : SourceCall → Option Word
  | .init none => some Config.defaultSeed
  | .init (some seed) => some seed
  | .foldByte value crc => (crc.value running).map (sourceFoldByte value)
  | .foldBytes ptr n crc => (crc.value running).bind (sourceFoldBytes m ptr n.toNat)
  | .foldText ptr crc => (crc.value running).bind (sourceFoldText m ptr)
  | .foldScalar16 value crc => (crc.value running).map (sourceFoldScalar 2 value)
  | .foldScalar32 value crc => (crc.value running).map (sourceFoldScalar 4 value)
  | .foldScalar64 value crc => (crc.value running).map (sourceFoldScalar 8 value)

/-- A fold with the given `crc` argument as commands (rule R51): the default form, the chained form, or INIT and then the
chained form. -/
def CrcArg.commands (fold : SeedSel → Instr) : CrcArg → List Instr
  | .omitted => [fold .omitted]
  | .running => [fold .given]
  | .explicit s => [.init .given s, fold .given]

/-- The commands a call is written as (rule R51). -/
def SourceCall.commands : SourceCall → List Instr
  | .init none => [.init .omitted 0#16]
  | .init (some seed) => [.init .given seed]
  | .foldByte value crc => crc.commands (fun d => .foldByte d value)
  | .foldBytes ptr n crc => crc.commands (fun d => .foldBytes d ptr n)
  | .foldText ptr crc => crc.commands (fun d => .foldText d ptr)
  | .foldScalar16 value crc => crc.commands (fun d => .foldScalar16 d value)
  | .foldScalar32 value crc => crc.commands (fun d => .foldScalar32 d value)
  | .foldScalar64 value crc => crc.commands (fun d => .foldScalar64 d value)

/-- A list of commands performed one after the other, each from the state the one before it left (rule R124). -/
def execAll : List Instr → State → Result
  | [], s => .next s
  | i :: is, s =>
    match exec i s with
    | .next t => execAll is t
    | .fault f => .fault f
    | .refused r => .refused r

/-- The response of a list of commands: that of its last command, none where one of them stops. -/
def lastResponse (is : List Instr) (s : State) : Option Word :=
  match execAll is s with
  | .next t => t.rsp
  | .fault _ => none
  | .refused _ => none

end Sys2Proof.Machine
end

