-- ==== Sys2Proof/Safety.lean ====
section
/-! DEFINITION. What the claims call safe: the domain on which a command completes ("well-typed inputs", `60_exceptions.md`
rule R100), the duties of the host (`70_reset_and_hazards.md` rules R122, R125 to R127), and the invariant of the state. -/

namespace Sys2Proof

/-- The choice a command's S bit makes. -/
def Instr.sel : Instr → SeedSel
  | .init sel _ => sel
  | .foldByte sel _ => sel
  | .foldBytes sel _ _ => sel
  | .foldText sel _ => sel
  | .foldScalar16 sel _ => sel
  | .foldScalar32 sel _ => sel
  | .foldScalar64 sel _ => sel

/-- The same command with another S bit. -/
def Instr.withSel (sel : SeedSel) : Instr → Instr
  | .init _ seed => .init sel seed
  | .foldByte _ value => .foldByte sel value
  | .foldBytes _ ptr len => .foldBytes sel ptr len
  | .foldText _ ptr => .foldText sel ptr
  | .foldScalar16 _ value => .foldScalar16 sel value
  | .foldScalar32 _ value => .foldScalar32 sel value
  | .foldScalar64 _ value => .foldScalar64 sel value

/-- A fold command: every command but INIT. -/
def Instr.isFold : Instr → Bool
  | .init _ _ => false
  | .foldByte _ _ => true
  | .foldBytes _ _ _ => true
  | .foldText _ _ => true
  | .foldScalar16 _ _ => true
  | .foldScalar32 _ _ => true
  | .foldScalar64 _ _ => true

/-- A command that reads the source memory (rule R22): FOLD_BYTES and FOLD_TEXT. -/
def Instr.isBuffer : Instr → Bool
  | .init _ _ => false
  | .foldByte _ _ => false
  | .foldBytes _ _ _ => true
  | .foldText _ _ => true
  | .foldScalar16 _ _ => false
  | .foldScalar32 _ _ => false
  | .foldScalar64 _ _ => false

end Sys2Proof

namespace Sys2Proof.Machine

/-- The command's checksum exists: S = 1, or `ACC` holds a value (rules R17, R122). -/
def CrcReady (sel : SeedSel) (s : State) : Prop :=
  sel = .omitted ∨ ∃ v, s.acc = .value v

/-- The `n` cells from `ptr` are below 2^32 and readable when the command reads them (rules R29, R30, R126). -/
def BufferReadable (s : State) (ptr : Addr) (n : Nat) : Prop :=
  ptr.toNat + n ≤ Config.addrLimit ∧ ∀ k < n, ∃ b, s.memRead k (ea ptr k) = some b

/-- At `ptr` stands a text of `n` bytes with its terminator, below 2^32 and readable (rules R29, R81, R126). -/
def TextReadable (s : State) (ptr : Addr) (n : Nat) : Prop :=
  ea ptr n < Config.addrLimit ∧ (∀ k < n, ∃ b, s.memRead k (ea ptr k) = some b ∧ b ≠ 0#8) ∧
    s.memRead n (ea ptr n) = some 0#8

/-- The inputs of a command are in the domain of rule R100. -/
def WellTyped (i : Instr) (s : State) : Prop :=
  match i with
  | .init _ _ => True
  | .foldByte sel _ => CrcReady sel s
  | .foldBytes sel ptr len => CrcReady sel s ∧ (ptr = Config.nullAddr ∨ BufferReadable s ptr len.toNat)
  | .foldText sel ptr => CrcReady sel s ∧ (ptr = Config.nullAddr ∨ ∃ n, TextReadable s ptr n)
  | .foldScalar16 sel _ => CrcReady sel s
  | .foldScalar32 sel _ => CrcReady sel s
  | .foldScalar64 sel _ => CrcReady sel s

/-- The word is a command (rule R127) and its inputs are in the domain: a checksum to start from (rule R122), a null pointer or
cells that the reads find readable (rule R126). -/
def GoodInputs (w : CmdWord) (s : State) : Prop :=
  ∃ i, decode w = .ok i ∧ WellTyped i s

/-- No write is made, before the response, to a cell that the command reads (rule R125). `s` is the state with no write in
flight. -/
def CellsStable (w : CmdWord) (race : List RaceWrite) (s : State) : Prop :=
  ∀ x ∈ race, x.addr.toNat ∉ wordReads w s

/-- The host keeps its duties in what it does next: a word it presents is a command with good inputs over the memory as it
stands (rules R122, R126, R127), and the cells it reads are left alone (rule R125). Rule R124 is in the form of the events: no
command is presented during another. Nothing is asked of a reset, of a write between commands or of doing nothing. -/
def DutyKept (s : State) : Prop :=
  match s.input with
  | .command w race :: rest =>
    GoodInputs w { s with input := rest, race := [] } ∧ CellsStable w race { s with input := rest, race := [] }
  | .commandReset w race _ :: rest =>
    GoodInputs w { s with input := rest, race := [] } ∧ CellsStable w race { s with input := rest, race := [] }
  | _ => True

/-- The next thing that happens is a reset, with or without a command in progress (rules R120, R123). -/
def ResetNext (s : State) : Prop :=
  match s.input with
  | .reset :: _ => True
  | .commandReset _ _ _ :: _ => True
  | _ => False

/-- The invariant of the state between two steps: the memory is canonical; the response port carries what `ACC` holds, or
nothing while `ACC` holds no value (rules R41, R121); the reads of a command ascend, each address once, none of them null or
beyond 2^32 (rules R27, R28, R29); no write is in flight. -/
structure State.Inv (s : State) : Prop where
  mem_wf : s.mem.wf
  rsp_acc : s.rsp = s.acc.value?
  reads_ascend : s.reads.Pairwise (· < ·)
  reads_legal : ∀ a ∈ s.reads, 0 < a ∧ a < Config.addrLimit
  race_nil : s.race = []

/-- The machine takes `n` steps from `s` without a stop. -/
def RunsFor (n : Nat) (s : State) : Prop :=
  ∃ t, Host.Core.run core n s = .next t

/-! ### Words the claims are written with -/

/-- `crc` is the checksum a command with this S starts from (rule R44): 0xFFFF with S = 1, the value in `ACC` with S = 0. -/
def StartsFrom (sel : SeedSel) (s : State) (crc : Word) : Prop :=
  match sel with
  | .omitted => crc = 0xFFFF#16
  | .given => s.acc = .value crc

/-- The operand bits a command looks at (rule R45), by its S bit and its OP; all other operand bits are ignored (rule R46). -/
def operandMask (s : BitVec 1) (op : BitVec 4) : BitVec 64 :=
  match op.toNat with
  | 0 => if s = 0#1 then 0xFFFF#64 else 0#64
  | 1 => 0xFF#64
  | 2 => 0xFFFFFFFFFFFFFFFF#64
  | 3 => 0xFFFFFFFF#64
  | 4 => 0xFFFF#64
  | 5 => 0xFFFFFFFF#64
  | 6 => 0xFFFFFFFFFFFFFFFF#64
  | _ => 0#64

/-- The bits of a word a command looks at: `S`, `RSV`, `OP` and the operand bits of rule R45. -/
def usedBits (w : CmdWord) : CmdWord :=
  0xFF#8 ++ operandMask (w.extractLsb' 71 1) (w.extractLsb' 64 4)

/-- Two float values are one: the same sign and number, the same infinity, the same NaN. -/
def FloatValue.Same : FloatValue → FloatValue → Prop
  | .finite neg m e, .finite neg' m' e' => neg = neg' ∧ (m : ℚ) * 2 ^ e = (m' : ℚ) * 2 ^ e'
  | .infinity neg, .infinity neg' => neg = neg'
  | .nan neg carried, .nan neg' carried' => neg = neg' ∧ carried = carried'
  | _, _ => False

end Sys2Proof.Machine
end

