-- ==== Sys2Proof/Certificates/Slice0/Obligations.lean ====
section
/-! DEFINITION. The statements for the provers. Each docstring names the rule of the spec it formalises. -/

open Sys2Proof Sys2Proof.Machine

/-! ### The kernel (`40_kernel.md`) -/

/-- Rule R62 (the spec's own derivation from rule R60): the sixteen XOR equations of the kernel. -/
def Obligations.KernelBitEquations : Prop :=
  ∀ (crc : Word) (x : Byte),
    let c := fun i => crc.getLsbD i
    let t := fun i => xor (x.getLsbD i) (c i)
    let d := fun i => if i < 4 then t i else xor (t i) (t (i - 4))
    let r := fun i => (update crc x).getLsbD i
    r 0 = xor (c 8) (d 4) ∧ r 1 = xor (c 9) (d 5) ∧ r 2 = xor (c 10) (d 6) ∧ r 3 = xor (xor (c 11) (d 7)) (d 0) ∧
    r 4 = xor (c 12) (d 1) ∧ r 5 = xor (c 13) (d 2) ∧ r 6 = xor (c 14) (d 3) ∧ r 7 = xor (c 15) (d 4) ∧
    r 8 = xor (d 0) (d 5) ∧ r 9 = xor (d 1) (d 6) ∧ r 10 = xor (d 2) (d 7) ∧ r 11 = d 3 ∧
    r 12 = d 4 ∧ r 13 = d 5 ∧ r 14 = d 6 ∧ r 15 = d 7

/-- Rule R63 (the bit-serial form is the spec's general knowledge G1): the kernel is eight steps of the reflected division. -/
def Obligations.KernelEqualsBitSerialDivision : Prop :=
  ∀ (crc : Word) (x : Byte), update crc x = serial crc x

/-- Rule R64 (a), (b), (c) (the spec's own derivation): the kernel depends on the byte and `lo8(crc)` through their XOR only,
keeps zero, and is linear over GF(2) in its two arguments together. -/
def Obligations.KernelIsLinear : Prop :=
  (∀ (crc : Word) (x : Byte), update crc x = update (crc ^^^ x.setWidth 16) 0#8) ∧
  update 0#16 0#8 = 0#16 ∧
  ∀ (c₁ c₂ : Word) (x₁ x₂ : Byte), update (c₁ ^^^ c₂) (x₁ ^^^ x₂) = update c₁ x₁ ^^^ update c₂ x₂

/-- Rule R64 (d), (e) (the spec's own derivation): folding `lo8(crc)` leaves `crc >> 8`; for a fixed byte the kernel is a
bijection of the checksums, for a fixed checksum it is injective in the byte. -/
def Obligations.KernelIsBijectiveInChecksum : Prop :=
  (∀ crc : Word, update crc (crc.extractLsb' 0 8) = crc >>> 8) ∧
  (∀ x : Byte, Function.Bijective (fun crc => update crc x)) ∧
  ∀ crc : Word, Function.Injective (update crc)

/-- Rule R67 (b), (d) (the spec's own derivation): a fold can be made in pieces, and for a fixed message the seed determines
and is determined by the checksum. -/
def Obligations.FoldListChainsAndSeparatesSeeds : Prop :=
  (∀ (crc : Word) (xs ys : List Byte), foldList crc (xs ++ ys) = foldList (foldList crc xs) ys) ∧
  ∀ bs : List Byte, Function.Bijective (fun crc => foldList crc bs)

/-- Rule R83 (h) (the spec's own derivation): a message followed by its checksum, low byte first, folds to 0x0000. -/
def Obligations.MessageWithItsChecksumFoldsToZero : Prop :=
  ∀ (seed : Word) (m : List Byte),
    let c := foldList seed m
    foldList seed (m ++ [c.extractLsb' 0 8, c.extractLsb' 8 8]) = 0#16

/-! ### The command word (`30_encoding.md`) -/

/-- Rules R42 to R47, R50, R55: every well-formed command, with every operand, decodes from the word it encodes to. -/
def Obligations.DecodeOfEncodeIsTheCommand : Prop :=
  ∀ i : Instr, i.wellFormed = true → decode (encode i) = .ok i

/-- Rules R45, R46: what a word decodes to is well formed and encodes to the word with its ignored operand bits cleared; so a
command keeps every bit it looks at. -/
def Obligations.EncodeOfDecodeKeepsUsedBits : Prop :=
  ∀ (w : CmdWord) (i : Instr), decode w = .ok i → i.wellFormed = true ∧ encode i = w &&& usedBits w

/-- Rule R46: operand bits that rule R45 does not list are ignored. Two words that agree on the bits a command looks at decode
alike and do the same to every state; an assembler writes the ignored bits as 0; masked with bits 70:64, a command's word is the
word of its OP. -/
def Obligations.IgnoredOperandBitsDoNotMatter : Prop :=
  (∀ w w' : CmdWord, w &&& usedBits w = w' &&& usedBits w →
    decode w = decode w' ∧ ∀ s : State, performWord w s = performWord w' s) ∧
  (∀ i : Instr, encode i &&& usedBits (encode i) = encode i) ∧
  ∀ (w : CmdWord) (i : Instr), decode w = .ok i →
    w &&& 0x7F0000000000000000#72 = encode i &&& 0x7F0000000000000000#72

/-- Rule R47: a word is reserved exactly when `RSV` is not 0b000 or `OP` is in 0x7 to 0xF; taken from CMD it is refused in every
state. -/
def Obligations.ReservedWordsAreRefused : Prop :=
  ∀ w : CmdWord,
    ((∃ e, decode w = .error e) ↔ w.extractLsb' 68 3 ≠ 0#3 ∨ 7 ≤ (w.extractLsb' 64 4).toNat) ∧
    (w.extractLsb' 68 3 ≠ 0#3 ∨ 7 ≤ (w.extractLsb' 64 4).toNat →
      ∀ s : State, ∃ e, performWord w s = .refused (.reservedWord e))

/-- Rules R43, R45, R55: which command a word with `RSV` = 0 is, with its operands, for each `OP` from 0 to 6. -/
def Obligations.OpcodeMapAndOperandLayout : Prop :=
  ∀ (w : CmdWord) (sel : SeedSel), w.extractLsb' 68 3 = 0#3 → (sel = .omitted ↔ w.getLsbD 71 = true) →
    (w.extractLsb' 64 4 = 0x0#4 → sel = .given → decode w = .ok (.init sel (w.extractLsb' 0 16))) ∧
    (w.extractLsb' 64 4 = 0x0#4 → sel = .omitted → decode w = .ok (.init sel 0#16)) ∧
    (w.extractLsb' 64 4 = 0x1#4 → decode w = .ok (.foldByte sel (w.extractLsb' 0 8))) ∧
    (w.extractLsb' 64 4 = 0x2#4 → decode w = .ok (.foldBytes sel (w.extractLsb' 0 32) (w.extractLsb' 32 32))) ∧
    (w.extractLsb' 64 4 = 0x3#4 → decode w = .ok (.foldText sel (w.extractLsb' 0 32))) ∧
    (w.extractLsb' 64 4 = 0x4#4 → decode w = .ok (.foldScalar16 sel (w.extractLsb' 0 16))) ∧
    (w.extractLsb' 64 4 = 0x5#4 → decode w = .ok (.foldScalar32 sel (w.extractLsb' 0 32))) ∧
    (w.extractLsb' 64 4 = 0x6#4 → decode w = .ok (.foldScalar64 sel (w.extractLsb' 0 64)))

/-- Rule R50's own examples of encodings, one of each command. -/
def Obligations.SpecWordsDecode : Prop :=
  decode 0x800000000000000000#72 = .ok (.init .omitted 0#16) ∧
  decode 0x000000000000001D0F#72 = .ok (.init .given 0x1D0F#16) ∧
  decode 0x010000000000000031#72 = .ok (.foldByte .given 0x31#8) ∧
  decode 0x810000000000000031#72 = .ok (.foldByte .omitted 0x31#8) ∧
  decode 0x020000000900001000#72 = .ok (.foldBytes .given 0x1000#32 9#32) ∧
  decode 0x030000000000001000#72 = .ok (.foldText .given 0x1000#32) ∧
  decode 0x040000000000001234#72 = .ok (.foldScalar16 .given 0x1234#16) ∧
  decode 0x05000000008552F189#72 = .ok (.foldScalar32 .given 0x8552F189#32) ∧
  decode 0x060123456789ABCDEF#72 = .ok (.foldScalar64 .given 0x0123456789ABCDEF#64)

/-! ### The commands: result, completion and frame (`41_init_fold_byte.md` to `43_fold_scalar.md`) -/

/-- Rule R70: INIT runs in every state, writes its seed (0xFFFF with S = 1) to `ACC` and to the response, reads no memory, and
changes nothing else; `INIT 0xFFFF` and `INIT` do the same; the seed of the second of two INIT stays; the words. -/
def Obligations.InitCreatesTheChecksum : Prop :=
  (∀ s : State,
    (∀ seed : Word, exec (.init .given seed) s = .next { s with acc := .value seed, rsp := some seed, reads := [] }) ∧
    (∀ unused : Word,
      exec (.init .omitted unused) s = .next { s with acc := .value 0xFFFF#16, rsp := some 0xFFFF#16, reads := [] } ∧
      exec (.init .omitted unused) s = exec (.init .given 0xFFFF#16) s) ∧
    ∀ (i j : Instr) (t : State), i.isFold = false → j.isFold = false → execAll [i, j] s = .next t → exec j s = .next t) ∧
  (∀ seed : Word, encode (.init .given seed) = 0x00#8 ++ 0#48 ++ seed) ∧
  encode (.init .omitted 0#16) = 0x800000000000000000#72

/-- Rule R71: FOLD_BYTE folds its byte into `crc_in` and changes nothing but `ACC`, the response and the list of reads, which is
empty; different bytes give different results; `value = lo8(crc_in)` gives `crc_in >> 8`; a zero checksum stays zero under 0x00
only; with S = 0 and `ACC` without value it has no meaning; the words and the worked example. -/
def Obligations.FoldByteFoldsOneByte : Prop :=
  ∀ (sel : SeedSel) (value : Byte) (s : State),
    (∀ crc : Word, StartsFrom sel s crc →
      exec (.foldByte sel value) s =
        .next { s with acc := .value (update crc value), rsp := some (update crc value), reads := [] } ∧
      (∀ other : Byte, other ≠ value → update crc other ≠ update crc value) ∧
      (value = crc.extractLsb' 0 8 → update crc value = crc >>> 8) ∧
      (crc = 0x0000#16 → (update crc value = 0x0000#16 ↔ value = 0x00#8)) ∧
      (crc = 0xFFFF#16 → value = 0x31#8 → update crc value = 0x2F8D#16)) ∧
    (sel = .given → s.acc = .noValue → exec (.foldByte sel value) s = .refused .accNoValue) ∧
    encode (.foldByte .given value) = 0x01#8 ++ 0#56 ++ value ∧
    encode (.foldByte .omitted value) = 0x81#8 ++ 0#56 ++ value

/-- Rule R90: FOLD_SCALAR16 folds the low byte, then the high byte, and changes nothing but `ACC`, the response and the (empty)
list of reads; an operand equal to `crc_in` gives 0x0000; the words and the rule's examples. -/
def Obligations.FoldScalar16LowByteFirst : Prop :=
  ∀ (sel : SeedSel) (v : BitVec 16) (s : State) (crc : Word), StartsFrom sel s crc →
    let r := update (update crc (v.extractLsb' 0 8)) (v.extractLsb' 8 8)
    exec (.foldScalar16 sel v) s = .next { s with acc := .value r, rsp := some r, reads := [] } ∧
    (v = crc → r = 0#16) ∧
    (crc = 0xFFFF#16 → (v = 0x1234#16 → r = 0x12E9#16) ∧ (v = 0x8552#16 → r = 0xC35A#16) ∧ (v = 0x5285#16 → r = 0x735B#16)) ∧
    encode (.foldScalar16 .given v) = 0x04#8 ++ 0#48 ++ v ∧
    encode (.foldScalar16 .omitted v) = 0x84#8 ++ 0#48 ++ v

/-- Rule R91: FOLD_SCALAR32 folds four bytes, lowest first, and changes nothing but `ACC`, the response and the (empty) list of
reads; it equals FOLD_SCALAR16 of the low half, then of the high half; the words and the rule's examples. -/
def Obligations.FoldScalar32LowestByteFirst : Prop :=
  ∀ (sel : SeedSel) (v : BitVec 32) (s : State) (crc : Word), StartsFrom sel s crc →
    let r := update (update (update (update crc (v.extractLsb' 0 8)) (v.extractLsb' 8 8)) (v.extractLsb' 16 8)) (v.extractLsb' 24 8)
    exec (.foldScalar32 sel v) s = .next { s with acc := .value r, rsp := some r, reads := [] } ∧
    execAll [.foldScalar16 sel (v.extractLsb' 0 16), .foldScalar16 .given (v.extractLsb' 16 16)] s =
      exec (.foldScalar32 sel v) s ∧
    (crc = 0xFFFF#16 →
      (v = 0x00000000#32 → r = 0x0321#16) ∧ (v = 0x8552F189#32 → r = 0x3226#16) ∧ (v = 0x89F15285#32 → r = 0x0A5A#16)) ∧
    encode (.foldScalar32 .given v) = 0x05#8 ++ 0#32 ++ v ∧
    encode (.foldScalar32 .omitted v) = 0x85#8 ++ 0#32 ++ v

/-- Rule R92: FOLD_SCALAR64 folds eight bytes, lowest first, and changes nothing but `ACC`, the response and the (empty) list of
reads; it equals FOLD_SCALAR32 of the low half, then of the high half; the words and the rule's example. -/
def Obligations.FoldScalar64LowestByteFirst : Prop :=
  ∀ (sel : SeedSel) (v : BitVec 64) (s : State) (crc : Word), StartsFrom sel s crc →
    let r := foldList crc [v.extractLsb' 0 8, v.extractLsb' 8 8, v.extractLsb' 16 8, v.extractLsb' 24 8,
      v.extractLsb' 32 8, v.extractLsb' 40 8, v.extractLsb' 48 8, v.extractLsb' 56 8]
    exec (.foldScalar64 sel v) s = .next { s with acc := .value r, rsp := some r, reads := [] } ∧
    execAll [.foldScalar32 sel (v.extractLsb' 0 32), .foldScalar32 .given (v.extractLsb' 32 32)] s =
      exec (.foldScalar64 sel v) s ∧
    (crc = 0xFFFF#16 → v = 0x0123456789ABCDEF#64 → r = 0x2583#16) ∧
    encode (.foldScalar64 .given v) = 0x06#8 ++ v ∧
    encode (.foldScalar64 .omitted v) = 0x86#8 ++ v

/-- Rule R80: FOLD_BYTES in each of its cases: null pointer or length 0, a readable buffer, a buffer past the top of the address
space, an unreadable cell, length 1, `ACC` without value. Where it completes, only `ACC`, the response and the list of reads
change. The words and the worked example. -/
def Obligations.FoldBytesFoldsTheBuffer : Prop :=
  ∀ (sel : SeedSel) (ptr : Addr) (len : Len) (s : State),
    (∀ crc : Word, StartsFrom sel s crc →
      (ptr = 0#32 ∨ len = 0#32 →
        exec (.foldBytes sel ptr len) s = .next { s with acc := .value crc, rsp := some crc, reads := [] }) ∧
      (ptr ≠ 0#32 → 4294967296 < ptr.toNat + len.toNat → exec (.foldBytes sel ptr len) s = .refused .bufferWraps) ∧
      (ptr ≠ 0#32 → ptr.toNat + len.toNat ≤ 4294967296 →
        (∀ M : Nat → Byte, (∀ k < len.toNat, s.memRead k (ptr.toNat + k) = some (M k)) →
          let r := foldList crc ((List.range len.toNat).map M)
          exec (.foldBytes sel ptr len) s =
            .next { s with acc := .value r, rsp := some r, reads := (List.range len.toNat).map (ptr.toNat + ·) } ∧
          (len = 1#32 → .next { s with acc := .value r, rsp := some r, reads := [] } = exec (.foldByte sel (M 0)) s) ∧
          (len = 9#32 → crc = 0xFFFF#16 → (∀ k < 9, M k = BitVec.ofNat 8 (0x31 + k)) → r = 0x6F91#16)) ∧
        (∀ n < len.toNat, (∀ k < n, (s.memRead k (ptr.toNat + k)).isSome) → s.memRead n (ptr.toNat + n) = none →
          exec (.foldBytes sel ptr len) s =
            .fault (.stuckRead ((List.range n).map (ptr.toNat + ·)) (ptr.toNat + n))))) ∧
    (sel = .given → s.acc = .noValue → exec (.foldBytes sel ptr len) s = .refused .accNoValue) ∧
    encode (.foldBytes .given ptr len) = 0x02#8 ++ len ++ ptr ∧
    encode (.foldBytes .omitted ptr len) = 0x82#8 ++ len ++ ptr

/-- Rule R81: FOLD_TEXT in each of its cases: null pointer, a text of `n` bytes with its terminator (the result of FOLD_BYTES with
that length), no terminator below 2^32, an unreadable cell before the terminator. Where it completes, only `ACC`, the response
and the list of reads change. The words and the worked example. -/
def Obligations.FoldTextFoldsUpToTheTerminator : Prop :=
  ∀ (sel : SeedSel) (ptr : Addr) (s : State),
    (∀ crc : Word, StartsFrom sel s crc →
      (ptr = 0#32 →
        exec (.foldText sel ptr) s = .next { s with acc := .value crc, rsp := some crc, reads := [] }) ∧
      (ptr ≠ 0#32 →
        (∀ (n : Nat) (M : Nat → Byte), ptr.toNat + n < 4294967296 →
          (∀ k < n, s.memRead k (ptr.toNat + k) = some (M k) ∧ M k ≠ 0#8) → s.memRead n (ptr.toNat + n) = some 0#8 →
          let r := foldList crc ((List.range n).map M)
          exec (.foldText sel ptr) s =
            .next { s with acc := .value r, rsp := some r, reads := (List.range (n + 1)).map (ptr.toNat + ·) } ∧
          (∃ u, exec (.foldBytes sel ptr (BitVec.ofNat 32 n)) s = .next u ∧ u.acc = .value r ∧ u.rsp = some r) ∧
          (n = 9 → crc = 0xFFFF#16 → (∀ k < 9, M k = BitVec.ofNat 8 (0x31 + k)) → r = 0x6F91#16)) ∧
        ((∀ k, ptr.toNat + k < 4294967296 → ∃ b, s.memRead k (ptr.toNat + k) = some b ∧ b ≠ 0#8) →
          exec (.foldText sel ptr) s = .refused .textUnterminated) ∧
        (∀ n, ptr.toNat + n < 4294967296 →
          (∀ k < n, ∃ b, s.memRead k (ptr.toNat + k) = some b ∧ b ≠ 0#8) → s.memRead n (ptr.toNat + n) = none →
          exec (.foldText sel ptr) s =
            .fault (.stuckRead ((List.range n).map (ptr.toNat + ·)) (ptr.toNat + n))))) ∧
    encode (.foldText .given ptr) = 0x03#8 ++ 0#32 ++ ptr ∧
    encode (.foldText .omitted ptr) = 0x83#8 ++ 0#32 ++ ptr

/-! ### Rules over all commands -/

/-- Rule R113: a command whose inputs are in the domain of rule R100 completes and gives its response; and only such a command
completes (rule R100, with R17, R29, R30). -/
def Obligations.CommandsCompleteExactlyInTheDomain : Prop :=
  ∀ (i : Instr) (s : State), (∃ (t : State) (r : Word), exec i s = .next t ∧ t.rsp = some r) ↔ WellTyped i s

/-- Rule R41: a command that completes gives one response, the value it wrote to `ACC`. -/
def Obligations.ResponseIsTheNewAccumulator : Prop :=
  ∀ (i : Instr) (s t : State), exec i s = .next t → ∃ v : Word, t.acc = .value v ∧ t.rsp = some v

/-- Rule R21: the hardware never writes memory. Whatever command completes, every byte reads as before, the memory is the same
data, and nothing outside `ACC` and the two ports changes. -/
def Obligations.HardwareNeverWritesMemory : Prop :=
  ∀ (i : Instr) (s t : State), exec i s = .next t →
    (∀ a, t.mem.read a = s.mem.read a) ∧ t = { s with acc := t.acc, rsp := t.rsp, reads := t.reads }

/-- Log 3, log 7 (the model's form of rules R21, R35): over a whole step that takes a command, the memory changes by the writes of
other agents only, which land after the command. -/
def Obligations.OnlyOthersWriteMemoryDuringACommand : Prop :=
  ∀ (s t : State) (w : CmdWord) (race : List RaceWrite) (rest : List HostEvent),
    s.input = .command w race :: rest → step s = .next t →
    t.mem = s.mem.land race ∧ t.race = [] ∧ t.input = rest ∧
    (∀ a, (∀ x ∈ race, x.addr.toNat ≠ a) → t.mem.read a = s.mem.read a) ∧ (race = [] → t.mem = s.mem)

/-- Rule R22: FOLD_BYTES and FOLD_TEXT reach the source memory, no other command does: the others read nothing and their result
is the same over any memory. -/
def Obligations.OnlyBufferCommandsReachMemory : Prop :=
  (∀ (i : Instr) (s t : State), i.isBuffer = false → exec i s = .next t →
    t.reads = [] ∧
    ∀ (m : Memory) (race : List RaceWrite),
      exec i { s with mem := m, race := race } = .next { t with mem := m, race := race }) ∧
  (∀ (sel : SeedSel) (ptr : Addr) (len : Len) (s t : State), ptr ≠ 0#32 → len ≠ 0#32 →
    exec (.foldBytes sel ptr len) s = .next t → t.reads ≠ []) ∧
  ∀ (sel : SeedSel) (ptr : Addr) (s t : State), ptr ≠ 0#32 → exec (.foldText sel ptr) s = .next t → t.reads ≠ []

/-- Rule R27: the order and number of reads of FOLD_BYTES and FOLD_TEXT. -/
def Obligations.ReadsAscendEachOnce : Prop :=
  (∀ (sel : SeedSel) (ptr : Addr) (len : Len) (s t : State), exec (.foldBytes sel ptr len) s = .next t →
    t.reads = if ptr = 0#32 then [] else (List.range len.toNat).map (ptr.toNat + ·)) ∧
  ∀ (sel : SeedSel) (ptr : Addr) (s t : State), exec (.foldText sel ptr) s = .next t →
    (ptr = 0#32 → t.reads = []) ∧
    (ptr ≠ 0#32 → ∃ n, s.memRead n (ptr.toNat + n) = some 0#8 ∧
      (∀ k < n, s.memRead k (ptr.toNat + k) ≠ some 0#8) ∧ t.reads = (List.range (n + 1)).map (ptr.toNat + ·))

/-- Rule R30: a command stops at a read exactly when it comes to an address outside the domain of the source memory; it is then
stuck there, with no next state: no response is given and `ACC` is not updated. -/
def Obligations.StuckExactlyAtAnUnreadableAddress : Prop :=
  ∀ (i : Instr) (s : State) (made : List Nat) (a : Nat), exec i s = .fault (.stuckRead made a) ↔
    ∃ (sel : SeedSel) (ptr : Addr) (n : Nat), CrcReady sel s ∧ ptr ≠ 0#32 ∧ a = ptr.toNat + n ∧
      made = (List.range n).map (ptr.toNat + ·) ∧ s.memRead n a = none ∧ a < 4294967296 ∧
      ((∃ len : Len, i = .foldBytes sel ptr len ∧ ptr.toNat + len.toNat ≤ 4294967296 ∧ n < len.toNat ∧
          ∀ k < n, (s.memRead k (ptr.toNat + k)).isSome) ∨
       (i = .foldText sel ptr ∧ ∀ k < n, ∃ b, s.memRead k (ptr.toNat + k) = some b ∧ b ≠ 0#8))

/-- Rules R17, R104: `ACC` has no value after reset; a command refuses for want of it exactly when it is a fold with S = 0 while
`ACC` has none, whatever its pointer; every command that completes leaves a value. -/
def Obligations.NoValueUntilACommandWritesOne : Prop :=
  State.reset.acc = .noValue ∧
  (∀ (i : Instr) (s : State),
    exec i s = .refused .accNoValue ↔ s.acc = .noValue ∧ i.isFold = true ∧ i.sel = .given) ∧
  ∀ (i : Instr) (s t : State), exec i s = .next t → t.acc ≠ .noValue

/-- Rule R11 (the spec's own derivation): INIT, and every command with S = 1, does the same whatever `ACC` holds. -/
def Obligations.DefaultFormsDoNotReadAcc : Prop :=
  ∀ (i : Instr) (s : State) (a : Acc), i.isFold = false ∨ i.sel = .omitted → exec i { s with acc := a } = exec i s

/-- Rule R44 (the clause is the spec's own derivation): a fold with S = 1 ends as INIT with S = 1 followed by the same fold with
S = 0 does, in every state, the stops included. -/
def Obligations.DefaultFormIsInitThenChainedForm : Prop :=
  ∀ (i : Instr) (s : State), i.isFold = true →
    exec (i.withSel .omitted) s = execAll [.init .omitted 0#16, i.withSel .given] s

/-- Rule R19: the response is a function of `crc_in`, the operand and the bytes read, and of nothing else. -/
def Obligations.ResponseDependsOnSeedOperandAndBytesRead : Prop :=
  ∀ (i : Instr) (s s' t : State), exec i s = .next t → startCrc i s' = startCrc i s →
    (∀ (k : Nat) (h : k < t.reads.length), s'.memRead k t.reads[k] = s.memRead k t.reads[k]) →
    ∃ t', exec i s' = .next t' ∧ t'.rsp = t.rsp ∧ t'.acc = t.acc ∧ t'.reads = t.reads

/-- Rule R111 (c): a chain is suspended by keeping its last response `r` and resumed by `INIT r`, exactly, over the same
memory: whatever was in `ACC` meanwhile, the next command does what it would have done. -/
def Obligations.SuspendAndResumeIsExact : Prop :=
  ∀ (i : Instr) (s s' : State) (r : Word), s.acc = .value r → s'.mem = s.mem → s'.race = s.race →
    (∀ t, exec i s = .next t →
      ∃ t', execAll [.init .given r, i] s' = .next t' ∧ t'.acc = t.acc ∧ t'.rsp = t.rsp ∧ t'.reads = t.reads) ∧
    (∀ f, exec i s = .fault f → execAll [.init .given r, i] s' = .fault f) ∧
    ∀ e, exec i s = .refused e → execAll [.init .given r, i] s' = .refused e

/-! ### Equivalences between commands (`42_fold_buffer.md` rule R83, `41_init_fold_byte.md` rule R72, `43_fold_scalar.md` R93) -/

/-- Rule R72 (the spec's own derivation): `INIT s` and then FOLD_BYTE of each byte of a list is the fold of the list; the response
of the `k`-th FOLD_BYTE is the fold of the first `k` bytes. -/
def Obligations.SequenceOfFoldByteIsAFold : Prop :=
  ∀ (s : State) (seed : Word) (bs : List Byte) (k : Nat),
    ∃ t, execAll (.init .given seed :: (bs.take k).map (.foldByte .given)) s = .next t ∧
      t.acc = .value (foldList seed (bs.take k)) ∧ t.rsp = some (foldList seed (bs.take k)) ∧ t.mem = s.mem

/-- Rule R83 (a), (the spec's own derivation): FOLD_BYTES leaves the `ACC` that FOLD_BYTE of each byte in order leaves. -/
def Obligations.BufferFoldDecomposesIntoBytes : Prop :=
  ∀ (s : State) (ptr : Addr) (len : Len) (M : Nat → Byte) (crc : Word), s.acc = .value crc → ptr ≠ 0#32 →
    ptr.toNat + len.toNat ≤ 4294967296 → (∀ k < len.toNat, s.memRead k (ptr.toNat + k) = some (M k)) →
    ∃ t u, exec (.foldBytes .given ptr len) s = .next t ∧
      execAll (((List.range len.toNat).map M).map (.foldByte .given)) s = .next u ∧ t.acc = u.acc

/-- Rule R83 (b), (the spec's own derivation): a buffer folded in two pieces, over memory nobody writes, leaves what one piece
leaves. -/
def Obligations.BufferFoldSplits : Prop :=
  ∀ (s : State) (ptr : Addr) (n k : Len) (crc : Word), s.race = [] → s.acc = .value crc → ptr ≠ 0#32 →
    ptr.toNat + n.toNat ≤ 4294967296 → (∀ j < n.toNat, (s.mem.read (ptr.toNat + j)).isSome) → k.toNat ≤ n.toNat →
    ∃ t u, exec (.foldBytes .given ptr n) s = .next t ∧
      execAll [.foldBytes .given ptr k, .foldBytes .given (ptr + k) (n - k)] s = .next u ∧
      t.acc = u.acc ∧ t.rsp = u.rsp

/-- Rule R83 (c), (the spec's own derivation): a text folds as the buffer of the bytes before its first zero byte. -/
def Obligations.TextFoldsAsBuffer : Prop :=
  ∀ (sel : SeedSel) (ptr : Addr) (s t : State), ptr ≠ 0#32 → exec (.foldText sel ptr) s = .next t →
    ∃ (n : Len) (u : State), s.memRead n.toNat (ptr.toNat + n.toNat) = some 0#8 ∧
      (∀ k < n.toNat, s.memRead k (ptr.toNat + k) ≠ some 0#8) ∧
      exec (.foldBytes sel ptr n) s = .next u ∧ u.acc = t.acc ∧ u.rsp = t.rsp

/-- Rules R24, R93 (the second the spec's own derivation): a scalar command leaves what FOLD_BYTES leaves over cells that hold
the scalar's bytes in little-endian order, for 2, 4 and 8 bytes. -/
def Obligations.ScalarFoldsAsLittleEndianBuffer : Prop :=
  ∀ (sel : SeedSel) (ptr : Addr) (s : State) (crc : Word) (v : BitVec 64), StartsFrom sel s crc → ptr ≠ 0#32 →
    let holds := fun n : Nat => ptr.toNat + n ≤ 4294967296 ∧
      ∀ k < n, s.memRead k (ptr.toNat + k) = some (BitVec.ofNat 8 (v.toNat / 256 ^ k))
    let agree := fun (i j : Instr) => ∃ t u, exec i s = .next t ∧ exec j s = .next u ∧ t.acc = u.acc ∧ t.rsp = u.rsp
    (holds 2 → agree (.foldScalar16 sel (v.extractLsb' 0 16)) (.foldBytes sel ptr 2#32)) ∧
    (holds 4 → agree (.foldScalar32 sel (v.extractLsb' 0 32)) (.foldBytes sel ptr 4#32)) ∧
    (holds 8 → agree (.foldScalar64 sel v) (.foldBytes sel ptr 8#32))

/-- Rule R18: for every call of the source's functional surface, the commands it is written as (rule R51) give its return value
as the response and in `ACC`, and stop where the call's input is not well typed (rule R100). -/
def Obligations.CommandsRefineTheSourceCalls : Prop :=
  ∀ (c : SourceCall) (s : State), s.mem.wf → s.race = [] →
    lastResponse c.commands s = c.returns s.mem s.acc.value? ∧
    ∀ t, execAll c.commands s = .next t → t.acc.value? = c.returns s.mem s.acc.value?

/-! ### The sequencer (`10_state.md` rule R16, `70_reset_and_hazards.md` rule R130) -/

/-- Rules R16, R105, decision D1 (that the command is one step of the machine and the loop stands beside it: log 2): a command done
as one step, and the loop that folds a byte a tick, agree: the command completes exactly when
the loop finishes, with the loop's checksum and reads; it is stuck exactly when the loop is, at the same address. -/
def Obligations.SequencerRefinesTheAtomicCommand : Prop :=
  ∀ (i : Instr) (s : State),
    (∀ t, exec i s = .next t ↔ ∃ (crc : Word) (src : SeqSource) (n : Nat) (q : Sequencer),
      startCrc i s = some crc ∧ seqSource i = some src ∧
      Sequencer.run s src n (Sequencer.start crc) = .finished q ∧
      t = { s with acc := .value q.crc, rsp := some q.crc, reads := q.made }) ∧
    (∀ made a, exec i s = .fault (.stuckRead made a) ↔ ∃ (crc : Word) (src : SeqSource) (n : Nat) (q : Sequencer),
      startCrc i s = some crc ∧ seqSource i = some src ∧
      Sequencer.run s src n (Sequencer.start crc) = .stuck q a ∧ made = q.made)

/-- Rule R130 (b), (c): how often the kernel is applied and how many reads are made, per command. -/
def Obligations.KernelAndReadCounts : Prop :=
  ∀ (i : Instr) (s : State) (crc : Word) (src : SeqSource) (n : Nat) (q : Sequencer),
    seqSource i = some src → Sequencer.run s src n (Sequencer.start crc) = .finished q →
    match i with
    | .init _ _ => q.index = 0 ∧ q.made.length = 0
    | .foldByte _ _ => q.index = 1 ∧ q.made.length = 0
    | .foldBytes _ ptr len =>
      (ptr = 0#32 → q.index = 0 ∧ q.made.length = 0) ∧ (ptr ≠ 0#32 → q.index = len.toNat ∧ q.made.length = len.toNat)
    | .foldText _ ptr =>
      (ptr = 0#32 → q.index = 0 ∧ q.made.length = 0) ∧ (ptr ≠ 0#32 → TextReadable s ptr q.index ∧ q.made.length = q.index + 1)
    | .foldScalar16 _ _ => q.index = 2 ∧ q.made.length = 0
    | .foldScalar32 _ _ => q.index = 4 ∧ q.made.length = 0
    | .foldScalar64 _ _ => q.index = 8 ∧ q.made.length = 0

/-! ### The machine: step, reset, memory (`70_reset_and_hazards.md`, `20_memory.md`, `60_exceptions.md`) -/

/-- Rules R40, R55 and log 3: a word at CMD that decodes to `i` makes the step `exec` of `i` (the event taken from the input,
the racing writes in flight; after it they have landed); a reserved word is refused; with nothing presented the machine holds its state (rule R110); a word
placed by `withFetchWord` is the next to be performed. -/
def Obligations.StepRunsTheDecodedCommand : Prop :=
  (∀ (s : State) (w : CmdWord) (race : List RaceWrite) (rest : List HostEvent) (i : Instr),
    s.input = .command w race :: rest → decode w = .ok i →
    let s₀ : State := { s with input := rest, race := race }
    (∀ t, exec i s₀ = .next t → step s = .next { t with mem := t.mem.land race, race := [] }) ∧
    (∀ f, exec i s₀ = .fault f → step s = .fault f) ∧
    ∀ r, exec i s₀ = .refused r → step s = .refused r) ∧
  (∀ (s : State) (w : CmdWord) (race : List RaceWrite) (rest : List HostEvent) (e : DecodeError),
    s.input = .command w race :: rest → decode w = .error e → step s = .refused (.reservedWord e)) ∧
  (∀ s : State, s.input = [] → step s = .next s) ∧
  ∀ (s : State) (w : CmdWord) (i : Instr) (t : State), decode w = .ok i → exec i { s with race := [] } = .next t →
    step (s.withFetchWord 72 w.toNat) = .next t

/-- Rule R121: what a reset leaves, from every state: `ACC` without value, no response pending, no read outstanding, and the
source memory as it was; the machine right after reset is in such a state. That a port with no response pending is `rsp = none` and
one with no read outstanding is `reads = []` is the model's choice (log 4, log 5). -/
def Obligations.ResetLeavesTheResetState : Prop :=
  (∀ (s : State) (rest : List HostEvent), s.input = .reset :: rest →
    ∃ t, step s = .next t ∧ t.acc = .noValue ∧ t.rsp = none ∧ t.reads = [] ∧ t.mem = s.mem) ∧
  State.reset.acc = .noValue ∧ State.reset.rsp = none ∧ State.reset.reads = []

/-- Rules R120, R123 in the model's form (log 7, log 8): from every state and for every word at CMD, a reset before the response
leaves the hardware in the reset state: no response, `ACC` without value; the memory is the host's still, with the writes of others
landed. Of a command's reads only those made before the reset are made, `n` of them at most: of one that would complete or be stuck,
whatever `ACC` holds, of a FOLD_TEXT without terminator, and of a FOLD_BYTES past the top of the address space (no read beyond it).
A reserved word reads nothing. -/
def Obligations.ResetAbandonsTheCommandInProgress : Prop :=
  ∀ (s : State) (w : CmdWord) (race : List RaceWrite) (n : Nat) (rest : List HostEvent),
    s.input = .commandReset w race n :: rest →
    let s₀ : State := { s with input := rest, race := race }
    ∃ t, step s = .next t ∧ t.acc = .noValue ∧ t.rsp = none ∧ t.mem = s.mem.land race ∧ t.race = [] ∧ t.input = rest ∧
      t.reads.length ≤ n ∧
      (∀ (i : Instr) (a : Acc), decode w = .ok i →
        (∀ u, exec i { s₀ with acc := a } = .next u → t.reads = u.reads.take n) ∧
        (∀ made b, exec i { s₀ with acc := a } = .fault (.stuckRead made b) → t.reads = made.take n)) ∧
      (∀ (sel : SeedSel) (ptr : Addr), decode w = .ok (.foldText sel ptr) → ptr ≠ 0#32 →
        (∀ k, ptr.toNat + k < 4294967296 → ∃ b, s₀.memRead k (ptr.toNat + k) = some b ∧ b ≠ 0#8) →
        t.reads = ((List.range (4294967296 - ptr.toNat)).map (ptr.toNat + ·)).take n) ∧
      (∀ (sel : SeedSel) (ptr : Addr) (len : Len), decode w = .ok (.foldBytes sel ptr len) → ptr ≠ 0#32 →
        4294967296 < ptr.toNat + len.toNat →
        (∀ k, ptr.toNat + k < 4294967296 → (s₀.memRead k (ptr.toNat + k)).isSome) →
        t.reads = ((List.range (4294967296 - ptr.toNat)).map (ptr.toNat + ·)).take n) ∧
      ∀ e, decode w = .error e → t.reads = []

/-- Rule R122 (its step 2): once `ACC` holds a value it holds one until the next reset. -/
def Obligations.AccHoldsAValueUntilReset : Prop :=
  ∀ (s t : State) (v : Word), s.acc = .value v → ¬ ResetNext s → step s = .next t → ∃ v' : Word, t.acc = .value v'

/-- Rules R122, R125, R126, R127 (the events are the model's, log 3, log 7): a host that keeps its duties never meets a stop, and its
command answers what it answers over the memory as it stands; a command that went on was a command (R127) with a checksum to start
from (R122) and good pointers (R126). That nobody wrote its cells (R125) does not follow: a command whose cells are written goes on
(U6). -/
def Obligations.DutiesKeptMeansNoStop : Prop :=
  (∀ s : State, DutyKept s → ∃ t, step s = .next t) ∧
  (∀ (s t : State) (w : CmdWord) (race : List RaceWrite) (rest : List HostEvent),
    s.input = .command w race :: rest → DutyKept s → step s = .next t →
    ∃ u, step { s with input := .command w [] :: rest } = .next u ∧ t.acc = u.acc ∧ t.rsp = u.rsp ∧ t.reads = u.reads) ∧
  ∀ (s t : State) (w : CmdWord) (race : List RaceWrite) (rest : List HostEvent),
    s.input = .command w race :: rest → step s = .next t → GoodInputs w { s with input := rest, race := race }

/-- Rules R27, R28, R29, R41, R121 and the canonical form of memory: the invariant of `Safety.lean` is kept by every step. -/
def Obligations.InvariantKeptByEveryStep : Prop :=
  ∀ s t : State, s.Inv → step s = .next t → t.Inv

/-- The invariant holds of the machine right after reset. -/
def Obligations.InvariantHoldsAtReset : Prop :=
  State.reset.Inv

/-- Rule R20 with log 3, log 6, log 17: the memory belongs to the host. After the host writes a cell the hardware reads that byte
there and every other address as before, also where the address was outside the domain (the model's choice, log 17); an address
withdrawn has no result any more, every other reads as before. That the ports keep the last response and reads over these events is
the model's choice (log 4, log 5). -/
def Obligations.HostWritesAreReadBack : Prop :=
  (∀ (s : State) (a : Addr) (b : Byte) (rest : List HostEvent), s.input = .write a b :: rest →
    ∃ t, step s = .next t ∧ t.mem.read a.toNat = some b ∧ (∀ a', a' ≠ a.toNat → t.mem.read a' = s.mem.read a') ∧
      t.acc = s.acc ∧ t.rsp = s.rsp ∧ t.reads = s.reads ∧ t.race = s.race ∧ t.input = rest) ∧
  ∀ (s : State) (a : Addr) (rest : List HostEvent), s.input = .withdraw a :: rest →
    ∃ t, step s = .next t ∧ t.mem.read a.toNat = none ∧ (∀ a', a' ≠ a.toNat → t.mem.read a' = s.mem.read a') ∧
      t.acc = s.acc ∧ t.rsp = s.rsp ∧ t.reads = s.reads ∧ t.race = s.race ∧ t.input = rest

/-- Rules R26, R35, U6: a read returns one value that the cell held during the command: what it held before, or what one of the
racing writes put there; with none in flight, what it held. -/
def Obligations.ReadsReturnAValueTheCellHeld : Prop :=
  ∀ (s : State) (k a : Nat),
    (∀ b, s.memRead k a = some b →
      s.mem.read a = some b ∨ ∃ w ∈ s.race, w.visibleFrom ≤ k ∧ w.addr.toNat = a ∧ w.byte = b) ∧
    ((∀ w ∈ s.race, w.addr.toNat ≠ a) → s.memRead k a = s.mem.read a)

/-! ### The assembler (`30_encoding.md` rules R50, R52, R53) -/

/-- Rules R50, R52, R53, R94 (d), R95: the commands as an assembler writes them (INIT without and with operand, NULL for the pointer
0); the typed aliases expand to the command of their width with the operand's storage bits: two's complement of a signed number, the
code of a character in the host's character set, `bits32` and `bits64` of a float value (what those are: `FloatImagesAreOfTheirValues`).
A float's image has its sign in the top bit, then the exponent, then the fraction (general knowledge G5, log 14); the float aliases
exist exactly when the instance's parameters say so; READ is FOLD_BYTES with the null pointer and length 0. -/
def Obligations.AliasesExpandToTheirCommands : Prop :=
  ((AsmLine.init none).assemble = some (.init .omitted 0#16) ∧
    ∀ v : Word, (AsmLine.init (some v)).assemble = some (.init .given v)) ∧
  (∀ v : Binary32, v.bits.extractLsb' 31 1 = v.sign ∧ v.bits.extractLsb' 23 8 = v.exponent ∧ v.bits.extractLsb' 0 23 = v.fraction) ∧
  (∀ v : Binary64, v.bits.extractLsb' 63 1 = v.sign ∧ v.bits.extractLsb' 52 11 = v.exponent ∧ v.bits.extractLsb' 0 52 = v.fraction) ∧
  ∀ d : SeedSel,
    (∀ v : Byte, (AsmLine.foldByte d v).assemble = some (.foldByte d v)) ∧
    (∀ (a : Addr) (n : Len), (AsmLine.foldBytes d (.addr a) n).assemble = some (.foldBytes d a n) ∧
      (AsmLine.foldBytes d .null n).assemble = some (.foldBytes d 0#32 n) ∧
      (AsmLine.foldText d (.addr a)).assemble = some (.foldText d a) ∧
      (AsmLine.foldText d .null).assemble = some (.foldText d 0#32)) ∧
    (∀ v : BitVec 16, (AsmLine.foldScalar16 d v).assemble = some (.foldScalar16 d v)) ∧
    (∀ v : BitVec 32, (AsmLine.foldScalar32 d v).assemble = some (.foldScalar32 d v)) ∧
    (∀ v : BitVec 64, (AsmLine.foldScalar64 d v).assemble = some (.foldScalar64 d v)) ∧
    (∀ v : Byte, (AsmLine.foldU8 d v).assemble = some (.foldByte d v)) ∧
    (∀ v : Char, (AsmLine.foldChar d v).assemble = (Config.charCode v).map (.foldByte d)) ∧
    (∀ v : BitVec 8, (AsmLine.foldI8 d v.toInt).assemble = some (.foldByte d v)) ∧
    (∀ v : BitVec 16, (AsmLine.foldU16 d v).assemble = some (.foldScalar16 d v) ∧
      (AsmLine.foldI16 d v.toInt).assemble = some (.foldScalar16 d v)) ∧
    (∀ v : BitVec 32, (AsmLine.foldU32 d v).assemble = some (.foldScalar32 d v) ∧
      (AsmLine.foldI32 d v.toInt).assemble = some (.foldScalar32 d v)) ∧
    (∀ v : BitVec 64, (AsmLine.foldU64 d v).assemble = some (.foldScalar64 d v) ∧
      (AsmLine.foldI64 d v.toInt).assemble = some (.foldScalar64 d v)) ∧
    (∀ v : FloatValue,
      (AsmLine.foldF32 d v).assemble = if Config.hasF32 then (bits32 v).map (.foldScalar32 d) else none) ∧
    (∀ v : FloatValue,
      (AsmLine.foldF64 d v).assemble = if Config.hasF64 then (bits64 v).map (.foldScalar64 d) else none) ∧
    (AsmLine.read d).assemble = some (.foldBytes d 0#32 0#32)

/-- Rules R53, R94, general knowledge G5 (log 14): `bits32` and `bits64` take a float value to its IEEE-754 interchange image. Every
image is the image of the value it stands for; a value with an image is the value that image stands for, and no other image is its
own; 1.0, the two zeros, the NaN patterns the spec names. -/
def Obligations.FloatImagesAreOfTheirValues : Prop :=
  (∀ b : Binary32, bits32 b.value = some b.bits) ∧
  (∀ (v : FloatValue) (w : BitVec 32), bits32 v = some w → ∃ b : Binary32, b.bits = w ∧ b.value.Same v) ∧
  (∀ b : Binary64, bits64 b.value = some b.bits) ∧
  (∀ (v : FloatValue) (w : BitVec 64), bits64 v = some w → ∃ b : Binary64, b.bits = w ∧ b.value.Same v) ∧
  (∀ b c : Binary32, b.value.Same c.value → b = c) ∧ (∀ b c : Binary64, b.value.Same c.value → b = c) ∧
  bits32 (.finite false 1 0) = some 0x3F800000#32 ∧ bits64 (.finite false 1 0) = some 0x3FF0000000000000#64 ∧
  bits32 (.finite false 0 0) = some 0x00000000#32 ∧ bits32 (.finite true 0 0) = some 0x80000000#32 ∧
  bits32 (.nan false 0x400000) = some 0x7FC00000#32 ∧ bits32 (.nan true 0x400000) = some 0xFFC00000#32 ∧
  bits32 (.nan false 0x400001) = some 0x7FC00001#32
end

