-- ==== Sys2Proof/Laws/State.lean ====
section
/-! SUPPORT. One lemma per field for each update of the state, so that no proof unfolds a record update. -/

namespace Sys2Proof.Machine

@[simp] theorem Acc.value?_noValue : Acc.noValue.value? = none := rfl
@[simp] theorem Acc.value?_value (v : Word) : (Acc.value v).value? = some v := rfl

theorem Acc.value?_eq_some {a : Acc} {v : Word} : a.value? = some v ↔ a = .value v := by
  cases a <;> simp [Acc.value?]

theorem Acc.value?_eq_none {a : Acc} : a.value? = none ↔ a = .noValue := by
  cases a <;> simp [Acc.value?]

section Respond
variable (s : State) (r : Word) (rs : List Nat)

@[simp] theorem respond_acc : (s.respond r rs).acc = .value r := rfl
@[simp] theorem respond_rsp : (s.respond r rs).rsp = some r := rfl
@[simp] theorem respond_reads : (s.respond r rs).reads = rs := rfl
@[simp] theorem respond_mem : (s.respond r rs).mem = s.mem := rfl
@[simp] theorem respond_race : (s.respond r rs).race = s.race := rfl
@[simp] theorem respond_input : (s.respond r rs).input = s.input := rfl

/-- The last command decides `ACC` and the ports. -/
@[simp] theorem respond_respond (r' : Word) (rs' : List Nat) :
    (s.respond r' rs').respond r rs = s.respond r rs := rfl

/-- A command's end does not change what is read. -/
@[simp] theorem respond_memRead (k a : Nat) : (s.respond r rs).memRead k a = s.memRead k a := rfl

end Respond

section AfterReset
variable (s : State)

@[simp] theorem afterReset_acc : s.afterReset.acc = .noValue := rfl
@[simp] theorem afterReset_rsp : s.afterReset.rsp = none := rfl
@[simp] theorem afterReset_reads : s.afterReset.reads = [] := rfl
@[simp] theorem afterReset_mem : s.afterReset.mem = s.mem := rfl
@[simp] theorem afterReset_race : s.afterReset.race = [] := rfl
@[simp] theorem afterReset_input : s.afterReset.input = s.input := rfl

end AfterReset

section Settle
variable (s : State)

@[simp] theorem settle_acc : s.settle.acc = s.acc := rfl
@[simp] theorem settle_rsp : s.settle.rsp = s.rsp := rfl
@[simp] theorem settle_reads : s.settle.reads = s.reads := rfl
@[simp] theorem settle_mem : s.settle.mem = s.mem.land s.race := rfl
@[simp] theorem settle_race : s.settle.race = [] := rfl
@[simp] theorem settle_input : s.settle.input = s.input := rfl

end Settle

end Sys2Proof.Machine
end

