-- ==== Sys2Proof/Laws/Memory.lean ====
section
/-! SUPPORT. The laws of the memory operations: read after write, and that each keeps the canonical form (`20_memory.md` R20). -/

namespace Sys2Proof.Machine

@[simp] theorem Memory.read_nil (a : Nat) : Memory.read [] a = none := rfl

theorem Memory.read_cons (c : Host.Cell) (m : Memory) (a : Nat) :
    Memory.read (c :: m) a = if c.1 = a then some c.2 else Memory.read m a := rfl

/-- Read after write: the written address gives the byte, every other address what it gave. -/
theorem Memory.read_write (m : Memory) (a : Nat) (b : Byte) (a' : Nat) :
    (m.write a b).read a' = if a = a' then some b else m.read a' := by
  induction m with
  | nil => rfl
  | cons c m ih =>
    unfold Memory.write
    split_ifs with h₁ h₂ h₃ <;> simp only [Memory.read_cons, ih] <;> split_ifs <;> simp_all

/-- Read after a withdrawal: the withdrawn address has no result, every other address gives what it gave. -/
theorem Memory.read_withdraw (m : Memory) (a a' : Nat) :
    (m.withdraw a).read a' = if a = a' then none else m.read a' := by
  induction m with
  | nil => simp [Memory.withdraw]
  | cons c m ih =>
    unfold Memory.withdraw at ih ⊢
    by_cases h : c.1 = a
    · subst h
      simp only [ne_eq, List.filter_cons, decide_not, decide_true, Bool.not_true, Bool.false_eq_true, if_false,
        Memory.read_cons] at ih ⊢
      rw [ih]; split_ifs <;> rfl
    · simp only [ne_eq, List.filter_cons, decide_not, h, decide_false, Bool.not_false, if_true,
        Memory.read_cons] at ih ⊢
      rw [ih]; split_ifs <;> simp_all

/-- A byte read is a listed cell. -/
theorem Memory.mem_of_read {m : Memory} {a : Nat} {b : Byte} (h : m.read a = some b) : (a, b) ∈ m := by
  induction m with
  | nil => simp at h
  | cons c m ih =>
    rw [Memory.read_cons] at h
    split_ifs at h with hc
    · cases h; subst hc; exact List.mem_cons_self
    · exact List.mem_cons_of_mem _ (ih h)

/-- The cells after a write: the written one and old ones. -/
theorem Memory.mem_write {m : Memory} {a : Nat} {b : Byte} {c : Host.Cell} (h : c ∈ m.write a b) :
    c = (a, b) ∨ c ∈ m := by
  induction m with
  | nil => simpa [Memory.write] using h
  | cons d m ih =>
    unfold Memory.write at h
    split_ifs at h with h₁ h₂
    · simpa using h
    · rcases List.mem_cons.1 h with rfl | h
      · exact .inl rfl
      · exact .inr (List.mem_cons_of_mem _ h)
    · rcases List.mem_cons.1 h with rfl | h
      · exact .inr List.mem_cons_self
      · exact (ih h).imp id (List.mem_cons_of_mem _)

/-- A write keeps the canonical form. -/
theorem Memory.write_wf {m : Memory} (hm : m.wf) {a : Nat} (ha : a < Config.addrLimit) (b : Byte) :
    (m.write a b).wf := by
  refine ⟨?_, fun c hc => ?_⟩
  · obtain ⟨hs, -⟩ := hm
    induction m with
    | nil => exact List.pairwise_singleton ..
    | cons d m ih =>
      obtain ⟨hd, hm⟩ := List.pairwise_cons.1 hs
      unfold Memory.write
      split_ifs with h₁ h₂
      · refine List.pairwise_cons.2 ⟨fun c hc => ?_, hs⟩
        rcases List.mem_cons.1 hc with rfl | hc
        · exact h₁
        · exact h₁.trans (hd c hc)
      · exact List.pairwise_cons.2 ⟨fun c hc => h₂ ▸ hd c hc, hm⟩
      · refine List.pairwise_cons.2 ⟨fun c hc => ?_, ih hm⟩
        rcases Memory.mem_write hc with rfl | hc
        · show d.1 < a
          omega
        · exact hd c hc
  · rcases Memory.mem_write hc with rfl | hc
    · exact ha
    · exact hm.2 c hc

/-- A withdrawal keeps the canonical form. -/
theorem Memory.withdraw_wf {m : Memory} (hm : m.wf) (a : Nat) : (m.withdraw a).wf :=
  ⟨hm.1.filter _, fun c hc => hm.2 c (List.mem_of_mem_filter hc)⟩

@[simp] theorem Memory.land_nil (m : Memory) : m.land [] = m := rfl

theorem Memory.land_cons (m : Memory) (w : RaceWrite) (ws : List RaceWrite) :
    m.land (w :: ws) = (m.write w.addr.toNat w.byte).land ws := rfl

/-- Landing writes keeps the canonical form. -/
theorem Memory.land_wf {m : Memory} (hm : m.wf) (ws : List RaceWrite) : (m.land ws).wf := by
  induction ws generalizing m with
  | nil => exact hm
  | cons w ws ih =>
    rw [Memory.land_cons]
    exact ih (Memory.write_wf hm (by have := w.addr.isLt; simpa [Config.addrLimit] using this) _)

/-- What a read gives after writes have landed: what the cell held, or what one of them put there. -/
theorem Memory.read_land {m : Memory} {ws : List RaceWrite} {a : Nat} {b : Byte} (h : (m.land ws).read a = some b) :
    m.read a = some b ∨ ∃ w ∈ ws, w.addr.toNat = a ∧ w.byte = b := by
  induction ws generalizing m with
  | nil => exact .inl h
  | cons w ws ih =>
    rw [Memory.land_cons] at h
    rcases ih h with h | ⟨x, hx, ha, hb⟩
    · rw [Memory.read_write] at h
      split_ifs at h with hw
      · exact .inr ⟨w, List.mem_cons_self, hw, Option.some.inj h⟩
      · exact .inl h
    · exact .inr ⟨x, List.mem_cons_of_mem _ hx, ha, hb⟩

/-- Writes elsewhere leave an address alone. -/
theorem Memory.read_land_of_ne {m : Memory} {ws : List RaceWrite} {a : Nat} (h : ∀ w ∈ ws, w.addr.toNat ≠ a) :
    (m.land ws).read a = m.read a := by
  induction ws generalizing m with
  | nil => rfl
  | cons w ws ih =>
    rw [Memory.land_cons, ih fun x hx => h x (List.mem_cons_of_mem _ hx), Memory.read_write,
      if_neg (h w List.mem_cons_self)]

/-- A canonical memory has no byte beyond the address space. -/
theorem Memory.read_of_limit_le {m : Memory} (hm : m.wf) {a : Nat} (ha : Config.addrLimit ≤ a) : m.read a = none := by
  cases h : m.read a with
  | none => rfl
  | some b => exact absurd (hm.2 _ (Memory.mem_of_read h)) (by simpa using ha)

/-- With no write in flight a command reads the memory as it is. -/
theorem memRead_of_race_nil {s : State} (h : s.race = []) (k a : Nat) : s.memRead k a = s.mem.read a := by
  simp [State.memRead, State.memAt, h]

/-- What a command reads depends on the memory and the writes in flight only. -/
theorem memRead_congr {s s' : State} (hm : s'.mem = s.mem) (hr : s'.race = s.race) (k a : Nat) :
    s'.memRead k a = s.memRead k a := by
  simp [State.memRead, State.memAt, hm, hr]

end Sys2Proof.Machine
end

