-- ==== Sys2Proof/Laws/Runs.lean ====
section
/-! SUPPORT. What a run of reads and the end of a command can be, said once (`42_fold_buffer.md` rules R80, R81). -/

namespace Sys2Proof.Machine

@[simp] theorem foldList_nil (crc : Word) : foldList crc [] = crc := rfl
@[simp] theorem foldList_cons (crc : Word) (b : Byte) (bs : List Byte) :
    foldList crc (b :: bs) = foldList (update crc b) bs := rfl

@[simp] theorem cons_bytes (a : Nat) (b : Byte) (r : Run) : (r.cons a b).bytes = b :: r.bytes := rfl
@[simp] theorem cons_reads (a : Nat) (b : Byte) (r : Run) : (r.cons a b).reads = a :: r.reads := rfl
@[simp] theorem cons_ending (a : Nat) (b : Byte) (r : Run) : (r.cons a b).ending = r.ending := rfl

/-- The addresses `ptr + i`, `ptr + i + 1`, ..., `n` of them. -/
def addrsFrom (ptr : Addr) (i n : Nat) : List Nat := (List.range n).map (fun k => ea ptr (i + k))

@[simp] theorem addrsFrom_zero (ptr : Addr) (i : Nat) : addrsFrom ptr i 0 = [] := rfl

theorem addrsFrom_succ (ptr : Addr) (i n : Nat) : addrsFrom ptr i (n + 1) = ea ptr i :: addrsFrom ptr (i + 1) n := by
  simp only [addrsFrom, List.range_succ_eq_map, List.map_cons, List.map_map, Nat.add_zero]
  congr 1
  apply List.map_congr_left
  intro k _
  simp [Function.comp, Nat.add_comm, Nat.add_left_comm]

/-- FOLD_BYTES's reads when all cells are readable: the bytes and the addresses, in order. -/
theorem readCells_complete (s : State) (ptr : Addr) (M : Nat → Byte) (n i : Nat)
    (h : ∀ k < n, s.memRead (i + k) (ea ptr (i + k)) = some (M (i + k))) :
    readCells s ptr n i = ⟨(List.range n).map (fun k => M (i + k)), addrsFrom ptr i n, .complete⟩ := by
  induction n generalizing i with
  | zero => rfl
  | succ n ih =>
    have h0 := h 0 (by omega)
    rw [Nat.add_zero] at h0
    have ih' := ih (i + 1) fun k hk => by
      have := h (k + 1) (by omega)
      rwa [show i + (k + 1) = i + 1 + k by omega] at this
    unfold readCells
    simp only [h0, ih', Run.cons, addrsFrom_succ]
    simp only [List.range_succ_eq_map, List.map_cons, List.map_map, Nat.add_zero, Run.mk.injEq, List.cons.injEq,
      true_and, and_true]
    apply List.map_congr_left
    intro k _
    simp [Function.comp, Nat.add_comm, Nat.add_left_comm]

/-- FOLD_BYTES's reads up to an unreadable cell. -/
theorem readCells_stuck (s : State) (ptr : Addr) (k n i : Nat) (hk : k < n)
    (h : ∀ j < k, (s.memRead (i + j) (ea ptr (i + j))).isSome) (hs : s.memRead (i + k) (ea ptr (i + k)) = none) :
    (readCells s ptr n i).ending = .stuck (ea ptr (i + k)) ∧ (readCells s ptr n i).reads = addrsFrom ptr i k := by
  induction n generalizing i k with
  | zero => omega
  | succ n ih =>
    unfold readCells
    cases k with
    | zero =>
      rw [Nat.add_zero] at hs
      simp [hs]
    | succ k =>
      obtain ⟨b, hb⟩ := Option.isSome_iff_exists.1 (h 0 (by omega))
      rw [Nat.add_zero] at hb
      have ih' := ih k (i + 1) (by omega)
        (fun j hj => by have := h (j + 1) (by omega); rwa [show i + (j + 1) = i + 1 + j by omega] at this)
        (by rwa [show i + (k + 1) = i + 1 + k by omega] at hs)
      simp only [hb, cons_ending, cons_reads, ih', addrsFrom_succ, and_true]
      rw [show i + 1 + k = i + (k + 1) by omega]

/-- FOLD_BYTES's reads end in one of two ways: all cells were readable, or the first unreadable one is met. -/
theorem readCells_cases (s : State) (ptr : Addr) (n i : Nat) :
    (∃ M : Nat → Byte, ∀ k < n, s.memRead (i + k) (ea ptr (i + k)) = some (M (i + k))) ∨
    ∃ k < n, (∀ j < k, (s.memRead (i + j) (ea ptr (i + j))).isSome) ∧ s.memRead (i + k) (ea ptr (i + k)) = none := by
  by_cases h : ∃ k, k < n ∧ s.memRead (i + k) (ea ptr (i + k)) = none
  · classical
    refine .inr ⟨Nat.find h, (Nat.find_spec h).1, fun j hj => ?_, (Nat.find_spec h).2⟩
    have hm := Nat.find_min h hj
    have hn := (Nat.find_spec h).1
    by_contra hc
    exact hm ⟨hj.trans hn, by simpa using hc⟩
  · refine .inl ⟨fun k => (s.memRead k (ea ptr k)).getD 0#8, fun k hk => ?_⟩
    cases hr : s.memRead (i + k) (ea ptr (i + k)) with
    | none => exact absurd ⟨k, hk, hr⟩ h
    | some b => dsimp only; rw [hr]; rfl

/-- FOLD_TEXT's reads when a terminator is found: the bytes before it, and the addresses with it. -/
theorem readText_complete (s : State) (ptr : Addr) (M : Nat → Byte) (n fuel i : Nat) (hn : n < fuel)
    (h : ∀ k < n, s.memRead (i + k) (ea ptr (i + k)) = some (M (i + k)) ∧ M (i + k) ≠ 0#8)
    (h0 : s.memRead (i + n) (ea ptr (i + n)) = some 0#8) :
    readText s ptr fuel i = ⟨(List.range n).map (fun k => M (i + k)), addrsFrom ptr i (n + 1), .complete⟩ := by
  induction n generalizing fuel i with
  | zero =>
    obtain ⟨fuel, rfl⟩ : ∃ f, fuel = f + 1 := ⟨fuel - 1, by omega⟩
    rw [Nat.add_zero] at h0
    simp [readText, h0, addrsFrom_succ]
  | succ n ih =>
    obtain ⟨fuel, rfl⟩ : ∃ f, fuel = f + 1 := ⟨fuel - 1, by omega⟩
    obtain ⟨hb, hz⟩ := h 0 (by omega)
    rw [Nat.add_zero] at hb hz
    have ih' := ih fuel (i + 1) (by omega)
      (fun k hk => by have := h (k + 1) (by omega); rwa [show i + (k + 1) = i + 1 + k by omega] at this)
      (by rwa [show i + (n + 1) = i + 1 + n by omega] at h0)
    unfold readText
    simp only [hb, hz, if_false, ih', Run.cons, addrsFrom_succ ptr i]
    simp only [List.range_succ_eq_map, List.map_cons, List.map_map, Nat.add_zero, Run.mk.injEq, List.cons.injEq,
      true_and, and_true]
    apply List.map_congr_left
    intro k _
    simp [Function.comp, Nat.add_comm, Nat.add_left_comm]

/-- FOLD_TEXT's reads up to an unreadable cell that comes before any terminator. -/
theorem readText_stuck (s : State) (ptr : Addr) (k fuel i : Nat) (hk : k < fuel)
    (h : ∀ j < k, ∃ b, s.memRead (i + j) (ea ptr (i + j)) = some b ∧ b ≠ 0#8)
    (hs : s.memRead (i + k) (ea ptr (i + k)) = none) :
    (readText s ptr fuel i).ending = .stuck (ea ptr (i + k)) ∧ (readText s ptr fuel i).reads = addrsFrom ptr i k := by
  induction k generalizing fuel i with
  | zero =>
    obtain ⟨fuel, rfl⟩ : ∃ f, fuel = f + 1 := ⟨fuel - 1, by omega⟩
    rw [Nat.add_zero] at hs
    simp [readText, hs]
  | succ k ih =>
    obtain ⟨fuel, rfl⟩ : ∃ f, fuel = f + 1 := ⟨fuel - 1, by omega⟩
    obtain ⟨b, hb, hz⟩ := h 0 (by omega)
    rw [Nat.add_zero] at hb
    have ih' := ih fuel (i + 1) (by omega)
      (fun j hj => by have := h (j + 1) (by omega); rwa [show i + (j + 1) = i + 1 + j by omega] at this)
      (by rwa [show i + (k + 1) = i + 1 + k by omega] at hs)
    unfold readText
    simp only [hb, hz, if_false, cons_ending, cons_reads, ih', addrsFrom_succ ptr i, and_true]
    rw [show i + 1 + k = i + (k + 1) by omega]

/-- FOLD_TEXT's reads when every cell it may read is readable and not zero. -/
theorem readText_unterminated (s : State) (ptr : Addr) (fuel i : Nat)
    (h : ∀ k < fuel, ∃ b, s.memRead (i + k) (ea ptr (i + k)) = some b ∧ b ≠ 0#8) :
    (readText s ptr fuel i).ending = .unterminated := by
  induction fuel generalizing i with
  | zero => rfl
  | succ fuel ih =>
    obtain ⟨b, hb, hz⟩ := h 0 (by omega)
    rw [Nat.add_zero] at hb
    unfold readText
    simp only [hb, hz, if_false, cons_ending]
    exact ih (i + 1) fun j hj => by have := h (j + 1) (by omega); rwa [show i + (j + 1) = i + 1 + j by omega] at this

/-- FOLD_TEXT's reads end in one of three ways: a terminator, an unreadable cell before it, or neither within reach. -/
theorem readText_cases (s : State) (ptr : Addr) (fuel i : Nat) :
    (∃ n < fuel, ∃ M : Nat → Byte, (∀ k < n, s.memRead (i + k) (ea ptr (i + k)) = some (M (i + k)) ∧ M (i + k) ≠ 0#8) ∧
      s.memRead (i + n) (ea ptr (i + n)) = some 0#8) ∨
    (∃ k < fuel, (∀ j < k, ∃ b, s.memRead (i + j) (ea ptr (i + j)) = some b ∧ b ≠ 0#8) ∧
      s.memRead (i + k) (ea ptr (i + k)) = none) ∨
    ∀ k < fuel, ∃ b, s.memRead (i + k) (ea ptr (i + k)) = some b ∧ b ≠ 0#8 := by
  by_cases h : ∃ k, k < fuel ∧ ¬ ∃ b, s.memRead (i + k) (ea ptr (i + k)) = some b ∧ b ≠ 0#8
  · classical
    obtain ⟨hk, hn⟩ := Nat.find_spec h
    have hpre : ∀ j < Nat.find h, ∃ b, s.memRead (i + j) (ea ptr (i + j)) = some b ∧ b ≠ 0#8 := fun j hj => by
      by_contra hc
      exact Nat.find_min h hj ⟨hj.trans hk, hc⟩
    cases hr : s.memRead (i + Nat.find h) (ea ptr (i + Nat.find h)) with
    | none => exact .inr (.inl ⟨_, hk, hpre, hr⟩)
    | some b =>
      have hb : b = 0#8 := by
        by_contra hz
        exact hn ⟨b, hr, hz⟩
      refine .inl ⟨_, hk, fun k => (s.memRead k (ea ptr k)).getD 0#8, fun k hk' => ?_, hb ▸ hr⟩
      obtain ⟨c, hc, hz⟩ := hpre k hk'
      simp [hc, hz]
  · refine .inr (.inr fun k hk => ?_)
    by_contra hc
    exact h ⟨k, hk, hc⟩

/-! ### The shared operations of the meanings -/

/-- `crc_in` with S = 0 is what `ACC` holds. -/
@[simp] theorem crcIn_given (s : State) : crcIn .given s = s.acc.value? := rfl
/-- `crc_in` with S = 1 is the default seed. -/
@[simp] theorem crcIn_omitted (s : State) : crcIn .omitted s = some Config.defaultSeed := rfl

/-- Everything `withCrcIn` can do: refuse for want of a value, or go on with `crc_in`. -/
theorem withCrcIn_cases (sel : SeedSel) (s : State) (k : Word → Result) :
    (sel = .given ∧ s.acc = .noValue ∧ withCrcIn sel s k = .refused .accNoValue) ∨
    ∃ crc, crcIn sel s = some crc ∧ withCrcIn sel s k = k crc := by
  unfold withCrcIn
  cases h : crcIn sel s with
  | none =>
    cases sel with
    | given => exact .inl ⟨rfl, Acc.value?_eq_none.1 h, rfl⟩
    | omitted => simp at h
  | some crc => exact .inr ⟨crc, rfl, rfl⟩

/-- `withCrcIn` with a `crc_in` goes on. -/
theorem withCrcIn_of_some {sel : SeedSel} {s : State} {crc : Word} (h : crcIn sel s = some crc) (k : Word → Result) :
    withCrcIn sel s k = k crc := by
  simp [withCrcIn, h]

/-- Everything `finishRun` can do. -/
theorem finishRun_cases (s : State) (crc : Word) (r : Run) :
    (r.ending = .complete ∧ finishRun s crc r = .next (s.respond (foldList crc r.bytes) r.reads)) ∨
    (∃ a, r.ending = .stuck a ∧ finishRun s crc r = .fault (.stuckRead r.reads a)) ∨
    (r.ending = .unterminated ∧ finishRun s crc r = .refused .textUnterminated) := by
  unfold finishRun
  cases h : r.ending <;> simp

/-- Whatever command completes, the next state is the old one with a response and a list of reads. -/
theorem exec_next_shape {i : Instr} {s t : State} (h : exec i s = .next t) : ∃ r rs, t = s.respond r rs := by
  have hw : ∀ {sel : SeedSel} {k : Word → Result}, withCrcIn sel s k = .next t →
      (∀ crc, k crc = .next t → ∃ r rs, t = s.respond r rs) → ∃ r rs, t = s.respond r rs := by
    intro sel k h hk
    rcases withCrcIn_cases sel s k with ⟨-, -, e⟩ | ⟨crc, -, e⟩
    · rw [e] at h; cases h
    · exact hk crc (e ▸ h)
  have hf : ∀ {crc : Word} {r : Run}, finishRun s crc r = .next t → ∃ r rs, t = s.respond r rs := by
    intro crc r h
    rcases finishRun_cases s crc r with ⟨-, e⟩ | ⟨a, -, e⟩ | ⟨-, e⟩ <;> rw [e] at h <;> cases h
    exact ⟨_, _, rfl⟩
  cases i with
  | init sel seed => cases sel <;> (cases h; exact ⟨_, _, rfl⟩)
  | foldByte sel v => exact hw h fun crc h => by cases h; exact ⟨_, _, rfl⟩
  | foldBytes sel p n =>
    exact hw h fun crc h => by
      split_ifs at h
      · cases h; exact ⟨_, _, rfl⟩
      · exact hf h
  | foldText sel p =>
    exact hw h fun crc h => by
      split_ifs at h
      · cases h; exact ⟨_, _, rfl⟩
      · exact hf h
  | foldScalar16 sel v => exact hw h fun crc h => by cases h; exact ⟨_, _, rfl⟩
  | foldScalar32 sel v => exact hw h fun crc h => by cases h; exact ⟨_, _, rfl⟩
  | foldScalar64 sel v => exact hw h fun crc h => by cases h; exact ⟨_, _, rfl⟩

end Sys2Proof.Machine
end

