-- ==== Sys2Proof/Laws/Commands.lean ====
section
/-! SUPPORT. Everything the two buffer commands can do, said once (`42_fold_buffer.md` rules R80, R81). -/

namespace Sys2Proof.Machine

theorem addrsFrom_start (ptr : Addr) (n : Nat) : addrsFrom ptr 0 n = (List.range n).map (ptr.toNat + ·) := by
  simp [addrsFrom, ea]

/-- With a `crc_in`, FOLD_BYTES answers for a null pointer, refuses past the top of the address space, completes over readable
cells, or is stuck at the first unreadable one. -/
theorem execFoldBytes_cases {sel : SeedSel} {s : State} {crc : Word} (h : crcIn sel s = some crc) (ptr : Addr) (len : Len) :
    (ptr = 0#32 ∧ execFoldBytes sel ptr len s = .next (s.respond crc [])) ∨
    (ptr ≠ 0#32 ∧ 4294967296 < ptr.toNat + len.toNat ∧ execFoldBytes sel ptr len s = .refused .bufferWraps) ∨
    (ptr ≠ 0#32 ∧ ptr.toNat + len.toNat ≤ 4294967296 ∧ ∃ M : Nat → Byte,
      (∀ k < len.toNat, s.memRead k (ptr.toNat + k) = some (M k)) ∧
      execFoldBytes sel ptr len s =
        .next (s.respond (foldList crc ((List.range len.toNat).map M)) ((List.range len.toNat).map (ptr.toNat + ·)))) ∨
    (ptr ≠ 0#32 ∧ ptr.toNat + len.toNat ≤ 4294967296 ∧ ∃ n < len.toNat,
      (∀ k < n, (s.memRead k (ptr.toNat + k)).isSome) ∧ s.memRead n (ptr.toNat + n) = none ∧
      execFoldBytes sel ptr len s = .fault (.stuckRead ((List.range n).map (ptr.toNat + ·)) (ptr.toNat + n))) := by
  have e : execFoldBytes sel ptr len s = _ := withCrcIn_of_some h _
  by_cases hp : ptr = Config.nullAddr
  · exact .inl ⟨hp, by rw [e, if_pos hp]⟩
  rw [if_neg hp] at e
  by_cases hw : Config.addrLimit < ptr.toNat + len.toNat
  · exact .inr (.inl ⟨hp, hw, by rw [e, if_pos hw]⟩)
  rw [if_neg hw] at e
  have hw' : ptr.toNat + len.toNat ≤ 4294967296 := Nat.not_lt.1 hw
  rcases readCells_cases s ptr len.toNat 0 with ⟨M, hM⟩ | ⟨n, hn, hr, hs⟩
  · refine .inr (.inr (.inl ⟨hp, hw', M, by simpa [ea] using hM, ?_⟩))
    rw [e, readCells_complete s ptr M _ 0 hM]
    simp [finishRun, addrsFrom_start]
  · obtain ⟨h₁, h₂⟩ := readCells_stuck s ptr n _ 0 hn hr hs
    refine .inr (.inr (.inr ⟨hp, hw', n, hn, by simpa [ea] using hr, by simpa [ea] using hs, ?_⟩))
    rw [e, finishRun, h₁, h₂]
    simp [addrsFrom_start, ea]

/-- With a `crc_in`, FOLD_TEXT answers for a null pointer, completes at the first zero byte, refuses when there is none below the
top of the address space, or is stuck at the first unreadable cell. -/
theorem execFoldText_cases {sel : SeedSel} {s : State} {crc : Word} (h : crcIn sel s = some crc) (ptr : Addr) :
    (ptr = 0#32 ∧ execFoldText sel ptr s = .next (s.respond crc [])) ∨
    (ptr ≠ 0#32 ∧ ∃ (n : Nat) (M : Nat → Byte), ptr.toNat + n < 4294967296 ∧
      (∀ k < n, s.memRead k (ptr.toNat + k) = some (M k) ∧ M k ≠ 0#8) ∧ s.memRead n (ptr.toNat + n) = some 0#8 ∧
      execFoldText sel ptr s =
        .next (s.respond (foldList crc ((List.range n).map M)) ((List.range (n + 1)).map (ptr.toNat + ·)))) ∨
    (ptr ≠ 0#32 ∧ (∀ k, ptr.toNat + k < 4294967296 → ∃ b, s.memRead k (ptr.toNat + k) = some b ∧ b ≠ 0#8) ∧
      execFoldText sel ptr s = .refused .textUnterminated) ∨
    (ptr ≠ 0#32 ∧ ∃ n, ptr.toNat + n < 4294967296 ∧
      (∀ k < n, ∃ b, s.memRead k (ptr.toNat + k) = some b ∧ b ≠ 0#8) ∧ s.memRead n (ptr.toNat + n) = none ∧
      execFoldText sel ptr s = .fault (.stuckRead ((List.range n).map (ptr.toNat + ·)) (ptr.toNat + n))) := by
  have e : execFoldText sel ptr s = _ := withCrcIn_of_some h _
  by_cases hp : ptr = Config.nullAddr
  · exact .inl ⟨hp, by rw [e, if_pos hp]⟩
  rw [if_neg hp] at e
  have hl : Config.addrLimit = 4294967296 := rfl
  rcases readText_cases s ptr (Config.addrLimit - ptr.toNat) 0 with ⟨n, hn, M, hM, h0⟩ | ⟨n, hn, hr, hs⟩ | hu
  · refine .inr (.inl ⟨hp, n, M, by omega, by simpa [ea] using hM, by simpa [ea] using h0, ?_⟩)
    rw [e, readText_complete s ptr M n _ 0 hn hM h0]
    simp [finishRun, addrsFrom_start]
  · obtain ⟨h₁, h₂⟩ := readText_stuck s ptr n _ 0 hn hr hs
    refine .inr (.inr (.inr ⟨hp, n, by omega, by simpa [ea] using hr, by simpa [ea] using hs, ?_⟩))
    rw [e, finishRun, h₁, h₂]
    simp [addrsFrom_start, ea]
  · refine .inr (.inr (.inl ⟨hp, fun k hk => by simpa [ea] using hu k (by omega), ?_⟩))
    rw [e, finishRun, readText_unterminated s ptr _ 0 hu]

/-- The reads of FOLD_BYTES, whatever they meet, are the first cells from its pointer, at most `n`. -/
theorem readCells_reads (s : State) (ptr : Addr) (n i : Nat) : ∃ m ≤ n, (readCells s ptr n i).reads = addrsFrom ptr i m := by
  rcases readCells_cases s ptr n i with ⟨M, hM⟩ | ⟨k, hk, hr, hs⟩
  · exact ⟨n, Nat.le_refl n, by rw [readCells_complete s ptr M n i hM]⟩
  · exact ⟨k, hk.le, (readCells_stuck s ptr k n i hk hr hs).2⟩

/-- FOLD_TEXT's reads when every cell it may read is readable and not zero: all of them. -/
theorem readText_unterminated_reads (s : State) (ptr : Addr) (fuel i : Nat)
    (h : ∀ k < fuel, ∃ b, s.memRead (i + k) (ea ptr (i + k)) = some b ∧ b ≠ 0#8) :
    (readText s ptr fuel i).reads = addrsFrom ptr i fuel := by
  induction fuel generalizing i with
  | zero => rfl
  | succ fuel ih =>
    obtain ⟨b, hb, hz⟩ := h 0 (by omega)
    rw [Nat.add_zero] at hb
    unfold readText
    simp only [hb, hz, if_false, cons_reads, addrsFrom_succ ptr i]
    rw [ih (i + 1) fun j hj => by have := h (j + 1) (by omega); rwa [show i + (j + 1) = i + 1 + j by omega] at this]

/-- The reads of FOLD_TEXT, whatever they meet, are the first cells from its pointer, at most `fuel`. -/
theorem readText_reads (s : State) (ptr : Addr) (fuel i : Nat) :
    ∃ m ≤ fuel, (readText s ptr fuel i).reads = addrsFrom ptr i m := by
  rcases readText_cases s ptr fuel i with ⟨n, hn, M, hM, h0⟩ | ⟨k, hk, hr, hs⟩ | hu
  · exact ⟨n + 1, hn, by rw [readText_complete s ptr M n fuel i hn hM h0]⟩
  · exact ⟨k, hk.le, (readText_stuck s ptr k fuel i hk hr hs).2⟩
  · exact ⟨fuel, Nat.le_refl fuel, readText_unterminated_reads s ptr fuel i hu⟩

/-- The reads of any command are none, or the first cells from a pointer that is not null, all below 2^32. -/
theorem commandReads_cases (i : Instr) (s : State) :
    commandReads i s = [] ∨ ∃ (ptr : Addr) (m : Nat), ptr ≠ 0#32 ∧ ptr.toNat + m ≤ 4294967296 ∧
      commandReads i s = (List.range m).map (ptr.toNat + ·) := by
  cases i with
  | foldBytes sel ptr len =>
    by_cases hp : ptr = Config.nullAddr
    · exact .inl (if_pos hp)
    · obtain ⟨m, hm, e⟩ := readCells_reads s ptr (min len.toNat (Config.addrLimit - ptr.toNat)) 0
      have hl := ptr.isLt
      have hc : Config.addrLimit = 4294967296 := rfl
      refine .inr ⟨ptr, m, hp, by omega, ?_⟩
      simp only [commandReads, if_neg hp, e, addrsFrom_start]
  | foldText sel ptr =>
    by_cases hp : ptr = Config.nullAddr
    · exact .inl (if_pos hp)
    · obtain ⟨m, hm, e⟩ := readText_reads s ptr (Config.addrLimit - ptr.toNat) 0
      have hl := ptr.isLt
      have hc : Config.addrLimit = 4294967296 := rfl
      refine .inr ⟨ptr, m, hp, by omega, ?_⟩
      simp only [commandReads, if_neg hp, e, addrsFrom_start]
  | init sel seed => exact .inl rfl
  | foldByte sel value => exact .inl rfl
  | foldScalar16 sel value => exact .inl rfl
  | foldScalar32 sel value => exact .inl rfl
  | foldScalar64 sel value => exact .inl rfl

/-- What a command reads does not depend on `ACC`. -/
@[simp] theorem commandReads_acc (i : Instr) (s : State) (a : Acc) : commandReads i { s with acc := a } = commandReads i s := by
  have hc (ptr : Addr) (n k : Nat) : readCells { s with acc := a } ptr n k = readCells s ptr n k := by
    induction n generalizing k with
    | zero => rfl
    | succ n ih => simp only [readCells, ih]; rfl
  have ht (ptr : Addr) (n k : Nat) : readText { s with acc := a } ptr n k = readText s ptr n k := by
    induction n generalizing k with
    | zero => rfl
    | succ n ih => simp only [readText, ih]; rfl
  cases i <;> simp only [commandReads, hc, ht]

/-- The reads of FOLD_BYTES below the top of the address space are those of its run. -/
theorem commandReads_foldBytes {ptr : Addr} {len : Len} (hp : ptr ≠ 0#32) (hw : ptr.toNat + len.toNat ≤ 4294967296)
    (sel : SeedSel) (s : State) : commandReads (.foldBytes sel ptr len) s = (readCells s ptr len.toNat 0).reads := by
  have hc : Config.addrLimit = 4294967296 := rfl
  have hm : min len.toNat (Config.addrLimit - ptr.toNat) = len.toNat := by omega
  simp only [commandReads, if_neg (show ptr ≠ Config.nullAddr from hp), hm]

/-- The reads of FOLD_TEXT are those of its run. -/
theorem commandReads_foldText {ptr : Addr} (hp : ptr ≠ 0#32) (sel : SeedSel) (s : State) :
    commandReads (.foldText sel ptr) s = (readText s ptr (Config.addrLimit - ptr.toNat) 0).reads :=
  if_neg hp

end Sys2Proof.Machine
end

