-- ==== Sys2Proof/Laws/Decode.lean ====
section
/-! SUPPORT. The fields of a command word built from fields, and the table's numbering (`30_encoding.md` rule R42). -/

namespace Sys2Proof

@[simp] theorem fieldOperand_cmdWord (s : BitVec 1) (rsv : BitVec 3) (op : BitVec 4) (operand : BitVec 64) :
    fieldOperand (cmdWord s rsv op operand) = operand :=
  (BitVec.extractLsb'_append_eq_of_add_le (by decide)).trans BitVec.extractLsb'_eq_self

@[simp] theorem fieldOp_cmdWord (s : BitVec 1) (rsv : BitVec 3) (op : BitVec 4) (operand : BitVec 64) :
    fieldOp (cmdWord s rsv op operand) = op :=
  (BitVec.extractLsb'_append_eq_of_le (by decide)).trans
    ((BitVec.extractLsb'_append_eq_of_add_le (by decide)).trans BitVec.extractLsb'_eq_self)

@[simp] theorem fieldRsv_cmdWord (s : BitVec 1) (rsv : BitVec 3) (op : BitVec 4) (operand : BitVec 64) :
    fieldRsv (cmdWord s rsv op operand) = rsv :=
  (BitVec.extractLsb'_append_eq_of_le (by decide)).trans <|
    (BitVec.extractLsb'_append_eq_of_le (by decide)).trans
      ((BitVec.extractLsb'_append_eq_of_add_le (by decide)).trans BitVec.extractLsb'_eq_self)

@[simp] theorem fieldS_cmdWord (s : BitVec 1) (rsv : BitVec 3) (op : BitVec 4) (operand : BitVec 64) :
    fieldS (cmdWord s rsv op operand) = s :=
  (BitVec.extractLsb'_append_eq_of_le (by decide)).trans <|
    (BitVec.extractLsb'_append_eq_of_le (by decide)).trans <|
      (BitVec.extractLsb'_append_eq_of_le (by decide)).trans BitVec.extractLsb'_eq_self

/-- A command word is determined by its four fields. -/
theorem cmdWord_fields (w : CmdWord) : cmdWord (fieldS w) (fieldRsv w) (fieldOp w) (fieldOperand w) = w := by
  have h₁ : fieldS w ++ fieldRsv w = w.extractLsb' 68 (1 + 3) := BitVec.extractLsb'_append_extractLsb'_eq_extractLsb' rfl
  have h₂ : w.extractLsb' 68 (1 + 3) ++ fieldOp w = w.extractLsb' 64 (1 + 3 + 4) :=
    BitVec.extractLsb'_append_extractLsb'_eq_extractLsb' rfl
  have h₃ : w.extractLsb' 64 (1 + 3 + 4) ++ fieldOperand w = w.extractLsb' 0 (1 + 3 + 4 + 64) :=
    BitVec.extractLsb'_append_extractLsb'_eq_extractLsb' rfl
  unfold cmdWord
  rw [h₁, h₂, h₃]
  exact BitVec.extractLsb'_eq_self

@[simp] theorem seedSelOf_bit (sel : SeedSel) : seedSelOf sel.bit = sel := by
  cases sel <;> rfl

/-- The table's numbering of a command word's bits is rule R42's. -/
theorem tableWord_toNat (w : CmdWord) : tableWord 72 w.toNat = some w := by
  have h : w.toNat < 2 ^ 72 := w.isLt
  unfold tableWord
  rw [Nat.mod_eq_of_lt h, if_pos h, BitVec.ofNat_toNat]
  simp

end Sys2Proof
end

