-- ==== Sys2Proof/Laws/PerInstr.lean ====
section
/-! SUPPORT. One statement per command: its word is the one of its row of `opcode_table.json` (`30_encoding.md` rule R46: "masks
the word with the row's mask, which covers bits 70:64 only, and compares with the row's match"). -/

namespace Sys2Proof.Laws.MatchesTable

/-- The row's "match", digit for digit. -/
def rowMatch : Instr → CmdWord
  | .init _ _ => 0x000000000000000000#72
  | .foldByte _ _ => 0x010000000000000000#72
  | .foldBytes _ _ _ => 0x020000000000000000#72
  | .foldText _ _ => 0x030000000000000000#72
  | .foldScalar16 _ _ => 0x040000000000000000#72
  | .foldScalar32 _ _ => 0x050000000000000000#72
  | .foldScalar64 _ _ => 0x060000000000000000#72

/-- The rows' "mask", the same for all. -/
def rowMask : CmdWord := 0x7F0000000000000000#72

/-- The encoded command, masked, is its row's match. -/
def Statement (i : Instr) : Prop := encode i &&& rowMask = rowMatch i

/-- A word with RSV = 0, masked, keeps its OP only. -/
theorem cmdWord_and_rowMask (s : BitVec 1) (op : BitVec 4) (operand : BitVec 64) :
    cmdWord s 0#3 op operand &&& rowMask = cmdWord 0#1 0#3 op 0#64 := by
  have h : op &&& 15#4 = op := BitVec.and_allOnes
  have e : cmdWord s 0#3 op operand &&& cmdWord 0#1 7#3 15#4 0#64
      = cmdWord (s &&& 0#1) (0#3 &&& 7#3) (op &&& 15#4) (operand &&& 0#64) :=
    BitVec.and_append.trans (congrArg (· ++ (operand &&& 0#64))
      (BitVec.and_append.trans (congrArg (· ++ (op &&& 15#4)) BitVec.and_append)))
  rw [h] at e
  have m : rowMask = cmdWord 0#1 7#3 15#4 0#64 := by decide
  rw [m]
  simpa using e

theorem init (sel : SeedSel) (seed : Word) : Statement (.init sel seed) := by
  cases sel <;> exact cmdWord_and_rowMask ..

theorem foldByte (sel : SeedSel) (value : Byte) : Statement (.foldByte sel value) := cmdWord_and_rowMask ..

theorem foldBytes (sel : SeedSel) (ptr : Addr) (len : Len) : Statement (.foldBytes sel ptr len) := cmdWord_and_rowMask ..

theorem foldText (sel : SeedSel) (ptr : Addr) : Statement (.foldText sel ptr) := cmdWord_and_rowMask ..

theorem foldScalar16 (sel : SeedSel) (value : BitVec 16) : Statement (.foldScalar16 sel value) := cmdWord_and_rowMask ..

theorem foldScalar32 (sel : SeedSel) (value : BitVec 32) : Statement (.foldScalar32 sel value) := cmdWord_and_rowMask ..

theorem foldScalar64 (sel : SeedSel) (value : BitVec 64) : Statement (.foldScalar64 sel value) := cmdWord_and_rowMask ..

end Sys2Proof.Laws.MatchesTable
end

