-- ==== Sys2Proof/Laws/Sequencer.lean ====
section
/-! SUPPORT. Where the sequencer's loop ends, for each source of bytes, in terms of the runs `exec` uses. -/

namespace Sys2Proof.Machine

/-- The tick a run of reads ends in, from a sequencing state. -/
def tickOfRun (q : Sequencer) (r : Run) : Tick :=
  match r.ending with
  | .complete => .finished ⟨foldList q.crc r.bytes, q.index + r.bytes.length, q.made ++ r.reads⟩
  | .stuck a => .stuck ⟨foldList q.crc r.bytes, q.index + r.bytes.length, q.made ++ r.reads⟩ a
  | .unterminated => .unterminated

/-- A run's end is an end. -/
theorem tickOfRun_ne_running (q : Sequencer) (r : Run) (q' : Sequencer) : tickOfRun q r ≠ .running q' := by
  unfold tickOfRun
  cases r.ending <;> simp

/-- A byte read and folded first. -/
theorem tickOfRun_cons (q : Sequencer) (r : Run) (a : Nat) (b : Byte) :
    tickOfRun ((q.note a).fold b) r = tickOfRun q (r.cons a b) := by
  unfold tickOfRun
  simp only [cons_ending]
  cases r.ending <;> simp [Sequencer.note, Sequencer.fold, Nat.add_assoc, Nat.add_comm 1]

/-- More turns than needed change nothing. -/
theorem run_add {s : State} {src : SeqSource} {t : Tick} (ht : ∀ q, t ≠ .running q) (m n : Nat) (q : Sequencer)
    (h : Sequencer.run s src n q = t) : Sequencer.run s src (n + m) q = t := by
  induction n generalizing q with
  | zero => exact absurd h.symm (ht q)
  | succ n ih =>
    rw [Nat.succ_add]
    unfold Sequencer.run at h ⊢
    cases hk : q.tick s src with
    | running q' => rw [hk] at h; exact ih q' h
    | finished q' => rw [hk] at h; exact h
    | stuck q' a => rw [hk] at h; exact h
    | unterminated => rw [hk] at h; exact h

/-- The loop ends in one way. -/
theorem run_unique {s : State} {src : SeqSource} {q : Sequencer} {m n : Nat} {t u : Tick}
    (ht : ∀ q, t ≠ .running q) (hu : ∀ q, u ≠ .running q)
    (h : Sequencer.run s src n q = t) (h' : Sequencer.run s src m q = u) : t = u := by
  rw [← run_add ht m n q h, ← run_add hu n m q h', Nat.add_comm]

/-- A loop over the bytes of an operand folds what is left of them. -/
theorem run_operand (s : State) (bytes : List Byte) (n : Nat) (q : Sequencer) (h : q.index + n = bytes.length) :
    Sequencer.run s (.operand bytes) (n + 1) q = .finished ⟨foldList q.crc (bytes.drop q.index), bytes.length, q.made⟩ := by
  induction n generalizing q with
  | zero =>
    unfold Sequencer.run
    simp only [Sequencer.tick]
    rw [List.getElem?_eq_none (by omega), List.drop_eq_nil_of_le (by omega), ← h]
    rfl
  | succ n ih =>
    unfold Sequencer.run
    simp only [Sequencer.tick]
    rw [List.getElem?_eq_getElem (show q.index < bytes.length by omega)]
    simp only []
    rw [ih _ (by simp only [Sequencer.fold]; omega), List.drop_eq_getElem_cons (show q.index < bytes.length by omega)]
    rfl

/-- A loop over a buffer ends as FOLD_BYTES's run of reads does. -/
theorem run_buffer (s : State) (ptr : Addr) (len n : Nat) (q : Sequencer) (h : q.index + n = len) :
    Sequencer.run s (.buffer ptr len) (n + 1) q = tickOfRun q (readCells s ptr n q.index) := by
  induction n generalizing q with
  | zero =>
    unfold Sequencer.run
    simp [Sequencer.tick, readCells, tickOfRun, show ¬ q.index < len by omega]
  | succ n ih =>
    unfold Sequencer.run
    simp only [Sequencer.tick, show q.index < len by omega, if_true, Sequencer.readTick, readCells]
    cases s.memRead q.index (ea ptr q.index) with
    | none => simp [tickOfRun]
    | some b =>
      simp only [Bool.false_and, Bool.false_eq_true, if_false]
      rw [ih _ (by simp only [Sequencer.fold, Sequencer.note]; omega), ← tickOfRun_cons]
      rfl

/-- A loop over a text ends as FOLD_TEXT's run of reads does. -/
theorem run_text (s : State) (ptr : Addr) (n : Nat) (q : Sequencer) (h : n = Config.addrLimit - ptr.toNat - q.index) :
    Sequencer.run s (.text ptr) (n + 1) q = tickOfRun q (readText s ptr n q.index) := by
  induction n generalizing q with
  | zero =>
    unfold Sequencer.run
    simp [Sequencer.tick, readText, tickOfRun, ea, show ¬ ptr.toNat + q.index < Config.addrLimit by omega]
  | succ n ih =>
    unfold Sequencer.run
    simp only [Sequencer.tick, ea, show ptr.toNat + q.index < Config.addrLimit by omega, if_true, Sequencer.readTick, readText]
    cases s.memRead q.index (ptr.toNat + q.index) with
    | none => simp [tickOfRun]
    | some b =>
      by_cases hb : b = 0#8
      · simp [tickOfRun, hb, Sequencer.note]
      · simp only [Bool.true_and, beq_iff_eq, hb, if_false]
        rw [ih _ (by simp only [Sequencer.fold, Sequencer.note]; omega), ← tickOfRun_cons]
        rfl

end Sys2Proof.Machine
end

