-- ==== Sys2Proof/Laws/Source.lean ====
section
/-! SUPPORT. What the source's functions of memory return, by what the memory holds (`30_encoding.md` rule R51). -/

namespace Sys2Proof.Machine

/-- The source's fold is `FoldList`. -/
theorem sourceFold_eq (bs : List Byte) (crc : Word) : bs.foldl (fun c b => sourceFoldByte b c) crc = foldList crc bs := by
  induction bs generalizing crc with
  | nil => rfl
  | cons b bs ih => exact ih _

theorem sourceBuffer_some {m : Memory} (M : Nat → Byte) (n a : Nat) (h : ∀ k < n, m.read (a + k) = some (M k)) :
    sourceBuffer m a n = some ((List.range n).map M) := by
  induction n generalizing a M with
  | zero => rfl
  | succ n ih =>
    have h0 : m.read a = some (M 0) := h 0 (by omega)
    have hs := ih (fun k => M (k + 1)) (a + 1) fun k hk => by
      rw [← h (k + 1) (by omega)]; congr 1; omega
    simp only [sourceBuffer, h0, hs, List.range_succ_eq_map, List.map_cons, List.map_map]
    rfl

theorem sourceBuffer_none {m : Memory} {n a k : Nat} (hk : k < n) (h : m.read (a + k) = none) :
    sourceBuffer m a n = none := by
  induction n generalizing a k with
  | zero => omega
  | succ n ih =>
    cases k with
    | zero => rw [Nat.add_zero] at h; simp [sourceBuffer, h]
    | succ k =>
      have hs := ih (a := a + 1) (k := k) (by omega) (by rw [← h]; congr 1; omega)
      simp [sourceBuffer, hs]

theorem sourceTextLength_some {m : Memory} {n fuel a : Nat} (hn : n < fuel)
    (h : ∀ k < n, ∃ b, m.read (a + k) = some b ∧ b ≠ 0#8) (h0 : m.read (a + n) = some 0#8) :
    sourceTextLength m a fuel = some n := by
  induction n generalizing a fuel with
  | zero =>
    obtain ⟨fuel, rfl⟩ : ∃ f, fuel = f + 1 := ⟨fuel - 1, by omega⟩
    rw [Nat.add_zero] at h0
    simp [sourceTextLength, h0]
  | succ n ih =>
    obtain ⟨fuel, rfl⟩ : ∃ f, fuel = f + 1 := ⟨fuel - 1, by omega⟩
    obtain ⟨b, hb, hz⟩ := h 0 (by omega)
    rw [Nat.add_zero] at hb
    have hs := ih (fuel := fuel) (a := a + 1) (by omega)
      (fun k hk => by have := h (k + 1) (by omega); rwa [show a + (k + 1) = a + 1 + k by omega] at this)
      (by rw [← h0]; congr 1; omega)
    simp [sourceTextLength, hb, hz, hs]

theorem sourceTextLength_none_of_unreadable {m : Memory} {n fuel a : Nat} (hn : n < fuel)
    (h : ∀ k < n, ∃ b, m.read (a + k) = some b ∧ b ≠ 0#8) (h0 : m.read (a + n) = none) :
    sourceTextLength m a fuel = none := by
  induction n generalizing a fuel with
  | zero =>
    obtain ⟨fuel, rfl⟩ : ∃ f, fuel = f + 1 := ⟨fuel - 1, by omega⟩
    rw [Nat.add_zero] at h0
    simp [sourceTextLength, h0]
  | succ n ih =>
    obtain ⟨fuel, rfl⟩ : ∃ f, fuel = f + 1 := ⟨fuel - 1, by omega⟩
    obtain ⟨b, hb, hz⟩ := h 0 (by omega)
    rw [Nat.add_zero] at hb
    have hs := ih (fuel := fuel) (a := a + 1) (by omega)
      (fun k hk => by have := h (k + 1) (by omega); rwa [show a + (k + 1) = a + 1 + k by omega] at this)
      (by rw [← h0]; congr 1; omega)
    simp [sourceTextLength, hb, hz, hs]

theorem sourceTextLength_none_of_no_terminator {m : Memory} {fuel a : Nat}
    (h : ∀ k < fuel, ∃ b, m.read (a + k) = some b ∧ b ≠ 0#8) : sourceTextLength m a fuel = none := by
  induction fuel generalizing a with
  | zero => rfl
  | succ n ih =>
    obtain ⟨b, hb, hz⟩ := h 0 (by omega)
    rw [Nat.add_zero] at hb
    have hs := ih (a := a + 1)
      fun k hk => by have := h (k + 1) (by omega); rwa [show a + (k + 1) = a + 1 + k by omega] at this
    simp [sourceTextLength, hb, hz, hs]

end Sys2Proof.Machine
end

