-- ==== Sys2Proof/Laws/Step.lean ====
section
/-! SUPPORT. What one step does, event by event (`30_encoding.md` rule R40, `70_reset_and_hazards.md` rules R120 to R123). -/

namespace Sys2Proof.Machine

@[simp] theorem settleResult_next (t : State) : settleResult (.next t) = .next t.settle := rfl
@[simp] theorem settleResult_fault (f : Fault) : settleResult (.fault f) = .fault f := rfl
@[simp] theorem settleResult_refused (r : Refusal) : settleResult (.refused r) = .refused r := rfl

/-- With nothing presented the state is held. -/
theorem step_idle {s : State} (h : s.input = []) : step s = .next s := by
  simp [step, stepInput, h]

/-- A step takes the first event. -/
theorem step_event {s : State} {e : HostEvent} {rest : List HostEvent} (h : s.input = e :: rest) :
    step s = applyEvent e { s with input := rest } := by
  simp [step, stepInput, h]

/-- A command word that decodes is performed. -/
theorem performWord_ok {w : CmdWord} {i : Instr} (h : decode w = .ok i) (s : State) : performWord w s = exec i s := by
  simp [performWord, h]

/-- A reserved command word is refused. -/
theorem performWord_error {w : CmdWord} {e : DecodeError} (h : decode w = .error e) (s : State) :
    performWord w s = .refused (.reservedWord e) := by
  simp [performWord, h]

/-- A word that is performed to its end was a command that completed. -/
theorem performWord_next {w : CmdWord} {s t : State} (h : performWord w s = .next t) :
    ∃ i, decode w = .ok i ∧ exec i s = .next t := by
  cases hd : decode w with
  | ok i => exact ⟨i, rfl, performWord_ok hd s ▸ h⟩
  | error e => rw [performWord_error hd] at h; cases h

theorem settleResult_eq_next {r : Result} {t : State} (h : settleResult r = .next t) :
    ∃ u, r = .next u ∧ t = u.settle := by
  cases r with
  | next u => cases h; exact ⟨u, rfl, rfl⟩
  | fault f => cases h
  | refused r => cases h

/-- A reset during a command always goes on, to the reset state with a prefix of the command's reads. -/
theorem step_commandReset {s : State} {w : CmdWord} {race : List RaceWrite} {n : Nat} {rest : List HostEvent}
    (h : s.input = .commandReset w race n :: rest) :
    step s = .next { ({ s with input := rest, race := race } : State).settle.afterReset with
      reads := (wordReads w { s with input := rest, race := race }).take n } :=
  step_event h

/-- The reads of a word that decodes are its command's. -/
theorem wordReads_ok {w : CmdWord} {i : Instr} (h : decode w = .ok i) (s : State) : wordReads w s = commandReads i s := by
  simp [wordReads, h]

/-- A reserved word reads nothing. -/
theorem wordReads_error {w : CmdWord} {e : DecodeError} (h : decode w = .error e) (s : State) : wordReads w s = [] := by
  simp [wordReads, h]

/-- Everything a step that goes on can have done: nothing, a command to its end, a command abandoned, a reset, a write, a
withdrawal. -/
theorem step_next_cases {s t : State} (h : step s = .next t) :
    (s.input = [] ∧ t = s) ∨
    ∃ rest, (∃ w race i u, s.input = .command w race :: rest ∧ decode w = .ok i ∧
        exec i { s with input := rest, race := race } = .next u ∧ t = u.settle) ∨
      (∃ w race n r, s.input = .commandReset w race n :: rest ∧
        t = { ({ s with input := rest, race := race } : State).settle.afterReset with reads := r.take n } ∧
        r = wordReads w { s with input := rest, race := race }) ∨
      (s.input = .reset :: rest ∧ t = { s with input := rest }.afterReset) ∨
      (∃ a b, s.input = .write a b :: rest ∧ t = { s with input := rest, mem := s.mem.write a.toNat b }) ∨
      ∃ a, s.input = .withdraw a :: rest ∧ t = { s with input := rest, mem := s.mem.withdraw a.toNat } := by
  cases hi : s.input with
  | nil => rw [step_idle hi] at h; cases h; exact .inl ⟨rfl, rfl⟩
  | cons e rest =>
    rw [step_event hi] at h
    refine .inr ⟨rest, ?_⟩
    cases e with
    | command w race =>
      obtain ⟨u, hu, rfl⟩ := settleResult_eq_next h
      obtain ⟨i, hd, he⟩ := performWord_next hu
      exact .inl ⟨w, race, i, u, rfl, hd, he, rfl⟩
    | commandReset w race n => cases h; exact .inr (.inl ⟨w, race, n, _, rfl, rfl, rfl⟩)
    | reset => cases h; exact .inr (.inr (.inl ⟨rfl, rfl⟩))
    | write a b => cases h; exact .inr (.inr (.inr (.inl ⟨a, b, rfl, rfl⟩)))
    | withdraw a => cases h; exact .inr (.inr (.inr (.inr ⟨a, rfl, rfl⟩)))

end Sys2Proof.Machine
end

