-- ==== Sys2Proof/Machine/Flags.lean ====
section
/-! DEFINITION. Nothing: the hardware has no flags, no condition codes and no predicates (`10_state.md` rule R13), and no
carry or overflow anywhere (`40_kernel.md` rule R61). No command sets a bit that a later command reads, so no flag computation
exists to be written here. -/
end

