-- ==== Sys2Proof/Tests/Slice0.lean ====
section
/-! SUPPORT. The model's own tests: words written out from the spec's encodings, the spec's vectors (`95_test_vectors.md`, whose
section each comment names), and for every obligation with hypotheses a witness that meets them. -/

namespace Sys2Proof.Tests

open Sys2Proof Sys2Proof.Machine

/-! ### Helpers -/

/-- The memory of `95_test_vectors.md` section 2.4, without the text at 0x2000. -/
def vectorMem : Memory :=
  [(0x1000, 0x31), (0x1001, 0x32), (0x1002, 0x33), (0x1003, 0x34), (0x1004, 0x35), (0x1005, 0x36), (0x1006, 0x37),
   (0x1007, 0x38), (0x1008, 0x39), (0x1009, 0x00)] ++
  [(0x3000, 0x85), (0x3001, 0x52), (0x3002, 0xF1), (0x3003, 0x89), (0x3004, 0x00), (0x3005, 0x41), (0x3006, 0x00)] ++
  [(0xFFFFFFFE, 0xFF), (0xFFFFFFFF, 0xFF)]

/-- A memory whose last two cells are the text "A": the terminator at the top of the address space. -/
def topText : Memory := [(0xFFFFFFFE, 0x41), (0xFFFFFFFF, 0x00)]

/-- The state after reset over a memory. -/
def afterReset (m : Memory) : State := { State.reset with mem := m }

/-- The same with a checksum in `ACC`. -/
def holding (v : Word) (m : Memory) : State := { State.reset with acc := .value v, rsp := some v, mem := m }

/-- The response and the reads of a step that goes on. -/
def answer : Result → Option (Option Word × List Nat)
  | .next t => some (t.rsp, t.reads)
  | .fault _ => none
  | .refused _ => none

/-- What `ACC` holds after a step that goes on. -/
def accAfter : Result → Option Acc
  | .next t => some t.acc
  | .fault _ => none
  | .refused _ => none

/-- The stop of a step that does not go on. -/
def stop : Result → Option (Fault ⊕ Refusal)
  | .next _ => none
  | .fault f => some (.inl f)
  | .refused r => some (.inr r)

/-- The instruction a decoding gives. -/
def decoded (w : CmdWord) : Option Instr := (decode w).toOption

/-! ### Well-formedness: the one check refuses an ill-formed term -/

theorem test_wellFormed_refuses_init_default_with_a_seed : (Instr.init .omitted 1#16).wellFormed = false := by decide
theorem test_wellFormed_accepts_init_default : (Instr.init .omitted 0#16).wellFormed = true := by decide

/-! ### Decoding: every constructor from a word written out bit by bit (rules R42, R43, R45), S RSV OP OPERAND -/

theorem test_decode_init_bits :
    decoded (0b0#1 ++ 0b000#3 ++ 0b0000#4 ++ 0x000000000000#48 ++ 0b0001110100001111#16) = some (.init .given 0x1D0F#16) := by
  decide
theorem test_decode_init_default_bits :
    decoded (0b1#1 ++ 0b000#3 ++ 0b0000#4 ++ 0x0000000000000000#64) = some (.init .omitted 0#16) := by decide
theorem test_decode_foldByte_bits :
    decoded (0b1#1 ++ 0b000#3 ++ 0b0001#4 ++ 0x00000000000000#56 ++ 0b00110001#8) = some (.foldByte .omitted 0x31#8) := by
  decide
theorem test_decode_foldBytes_bits :
    decoded (0b0#1 ++ 0b000#3 ++ 0b0010#4 ++ 0x00000009#32 ++ 0x00001000#32) = some (.foldBytes .given 0x1000#32 9#32) := by
  decide
theorem test_decode_foldText_bits :
    decoded (0b1#1 ++ 0b000#3 ++ 0b0011#4 ++ 0x00000000#32 ++ 0x00001009#32) = some (.foldText .omitted 0x1009#32) := by decide
theorem test_decode_foldScalar16_bits :
    decoded (0b0#1 ++ 0b000#3 ++ 0b0100#4 ++ 0x000000000000#48 ++ 0x1234#16) = some (.foldScalar16 .given 0x1234#16) := by
  decide
theorem test_decode_foldScalar32_bits :
    decoded (0b0#1 ++ 0b000#3 ++ 0b0101#4 ++ 0x00000000#32 ++ 0x8552F189#32) = some (.foldScalar32 .given 0x8552F189#32) := by
  decide
theorem test_decode_foldScalar64_bits :
    decoded (0b1#1 ++ 0b000#3 ++ 0b0110#4 ++ 0x0123456789ABCDEF#64) = some (.foldScalar64 .omitted 0x0123456789ABCDEF#64) := by
  decide

/-- Section 2.2, 2.3, 2.5: ignored operand bits set. -/
theorem test_decode_ignores_unused_bits :
    decoded 0x80DEADBEEF12345678#72 = some (.init .omitted 0#16) ∧
    decoded 0x00FFFFFFFFFFFF1D0F#72 = some (.init .given 0x1D0F#16) ∧
    decoded 0x01AAAAAAAAAAAAAA31#72 = some (.foldByte .given 0x31#8) ∧
    decoded 0x03FFFFFFFF00001000#72 = some (.foldText .given 0x1000#32) := by decide

/-- Section 2.9: the reserved words. -/
theorem test_decode_refuses_reserved_words :
    [0x070000000000000000#72, 0x0F0000000000000000#72, 0x8A0000000000000000#72, 0x110000000000000031#72,
      0x710000000000000031#72].map decoded = [none, none, none, none, none] := by decide

/-- Rule R50's examples, encoded. -/
theorem test_encode_examples :
    [Instr.init .omitted 0#16, .init .given 0x1D0F#16, .foldByte .omitted 0x31#8, .foldBytes .given 0x1000#32 9#32,
      .foldText .given 0x1000#32, .foldScalar16 .given 0x1234#16, .foldScalar64 .given 0x0123456789ABCDEF#64].map encode =
    [0x800000000000000000#72, 0x000000000000001D0F#72, 0x810000000000000031#72, 0x020000000900001000#72,
      0x030000000000001000#72, 0x040000000000001234#72, 0x060123456789ABCDEF#72] := by decide

theorem test_decodeTableWord : decodeTableWord 72 0x810000000000000031 = some (.foldByte .omitted 0x31#8) := by decide
theorem test_decodeTableWord_short : decodeTableWord 8 0x31 = some (.init .given 0x31#16) := by decide
theorem test_decodeTableWord_reserved : decodeTableWord 72 0x070000000000000000 = none := by decide

/-! ### The kernel (section 2.1) and the known answer (section 1.1) -/

theorem test_update_vectors :
    update 0x0000#16 0x00#8 = 0x0000#16 ∧ update 0xFFFF#16 0x31#8 = 0x2F8D#16 ∧ update 0xFFFF#16 0x00#8 = 0x0F87#16 ∧
    update 0xFFFF#16 0x80#8 = 0x8B8F#16 ∧ update 0x0000#16 0x80#8 = 0x8408#16 ∧ update 0xFF00#16 0x00#8 = 0x00FF#16 ∧
    update 0x8408#16 0x00#8 = 0x8CCC#16 ∧ update 0x1021#16 0x00#8 = 0x309B#16 ∧ update 0xA5A5#16 0x5A#8 = 0x0FDD#16 ∧
    update 0x1D0F#16 0x00#8 = 0xF8EA#16 := by decide

/-- The source's check value: nine ASCII bytes from 0xFFFF give 0x6F91. -/
theorem test_known_answer :
    foldList 0xFFFF#16 [0x31#8, 0x32#8, 0x33#8, 0x34#8, 0x35#8, 0x36#8, 0x37#8, 0x38#8, 0x39#8] = 0x6F91#16 := by decide

/-- `90_conflicts.md` C1: the corrected values of the four bytes, not the source's. -/
theorem test_end_to_end_corrected :
    update 0xFFFF#16 0x85#8 = 0xDC22#16 ∧ update 0xDC22#16 0x52#8 = 0x735B#16 ∧ update 0x735B#16 0xF1#8 = 0x0A23#16 ∧
    update 0x0A23#16 0x89#8 = 0x0A5A#16 := by decide

/-! ### The commands, each through `step` from a word (sections 2.2 to 2.8) -/

/-- Section 2.2: legal right after reset. -/
theorem test_init : answer (step ((afterReset []).present 0x000000000000001D0F#72)) = some (some 0x1D0F#16, []) := by decide
theorem test_init_default : accAfter (step ((holding 0x1234#16 []).present 0x80DEADBEEF12345678#72)) = some (.value 0xFFFF#16) := by
  decide

/-- Section 2.3. -/
theorem test_foldByte : answer (step ((holding 0xFFFF#16 []).present 0x010000000000000041#72)) = some (some 0x5C0A#16, []) := by
  decide
theorem test_foldByte_default : accAfter (step ((afterReset []).present 0x810000000000000031#72)) = some (.value 0x2F8D#16) := by
  decide

/-- Section 2.4: the buffer of the check string from a seed of its own. -/
theorem test_foldBytes :
    answer (step ((holding 0x1D0F#16 vectorMem).present 0x020000000900001000#72)) =
      some (some 0x5604#16, [0x1000, 0x1001, 0x1002, 0x1003, 0x1004, 0x1005, 0x1006, 0x1007, 0x1008]) := by decide
/-- Section 2.4: `ptr + len` = 2^32 is legal. -/
theorem test_foldBytes_top :
    answer (step ((afterReset vectorMem).present 0x8200000002FFFFFFFE#72)) =
      some (some 0x0000#16, [0xFFFFFFFE, 0xFFFFFFFF]) := by decide

/-- Section 2.5: the scan stops at the 0x00 at 0x3004. -/
theorem test_foldText :
    answer (step ((afterReset vectorMem).present 0x830000000000003000#72)) =
      some (some 0x0A5A#16, [0x3000, 0x3001, 0x3002, 0x3003, 0x3004]) := by decide
/-- Section 2.5: an empty text. -/
theorem test_foldText_empty :
    answer (step ((holding 0x6F91#16 vectorMem).present 0x030000000000001009#72)) = some (some 0x6F91#16, [0x1009]) := by decide

/-- Section 2.6. -/
theorem test_foldScalar16 : answer (step ((holding 0x1D0F#16 []).present 0x040000000000008552#72)) = some (some 0x7B4E#16, []) := by
  decide
/-- Section 2.7. -/
theorem test_foldScalar32 : answer (step ((afterReset []).present 0x8500000000FFC00000#72)) = some (some 0xC6F3#16, []) := by
  decide
/-- Section 2.8. -/
theorem test_foldScalar64 : answer (step ((holding 0x1D0F#16 []).present 0x063FF0000000000000#72)) = some (some 0x9F48#16, []) := by
  decide

/-! ### The stops (sections 2.4, 2.5, 2.9, 3.5) -/

/-- Section 3.5, "What a model must refuse", command 1; section 2.3, last row (U1). -/
theorem test_accNoValue : stop (step ((afterReset []).present 0x010000000000000031#72)) = some (.inr .accNoValue) := by decide
theorem test_reserved :
    stop (step ((holding 0xFFFF#16 []).present 0x070000000000000000#72)) = some (.inr (.reservedWord (.opReserved 7#4))) := by
  decide
theorem test_bufferWraps : stop (step ((afterReset vectorMem).present 0x8200000003FFFFFFFE#72)) = some (.inr .bufferWraps) := by
  decide
theorem test_textUnterminated :
    stop (step ((afterReset vectorMem).present 0x8300000000FFFFFFFE#72)) = some (.inr .textUnterminated) := by decide
theorem test_stuck : stop (step ((afterReset vectorMem).present 0x820000000100005000#72)) = some (.inl (.stuckRead [] 0x5000)) := by
  decide
/-- Rule R104: `ACC` without value refuses whatever the pointer. -/
theorem test_accNoValue_comes_before_null : stop (step ((afterReset []).present 0x020000000000000000#72)) = some (.inr .accNoValue) := by
  decide

/-! ### The machine -/

/-- The very next step runs the word placed, before what the outside had planned. -/
theorem test_withFetchWord :
    answer (step (({ afterReset [] with input := [.reset] } : State).withFetchWord 72 0x810000000000000031)) =
      some (some 0x2F8D#16, []) := by decide

/-- Rule R123, U7: a reset during a stuck command ends it: no response, no value, the read before the bad one stays made. -/
theorem test_reset_ends_a_stuck_command :
    answer (step { afterReset vectorMem with input := [.commandReset 0x820000000300003005#72 [] 9] }) =
      some (none, [0x3005, 0x3006]) := by decide

/-- Rules R41, R81 (d), R120, R123: a reset ends a FOLD_TEXT without terminator, with as many of its reads as came before it. -/
theorem test_reset_ends_an_unterminated_text :
    answer (step { afterReset vectorMem with input := [.commandReset 0x8300000000FFFFFFFE#72 [] 1] }) =
      some (none, [0xFFFFFFFE]) := by decide
/-- Rules R17, R120: a fold without a checksum is refused, and a reset before its response leaves the reset state. -/
theorem test_reset_ends_a_fold_without_checksum :
    accAfter (step { afterReset vectorMem with input := [.commandReset 0x010000000000000031#72 [] 0] }) = some .noValue := by decide

/-- U6: the text's second byte is overwritten by 0x00 before it is read: the text is "1" (section 2.3: 0x2F8D). -/
theorem test_racing_write_moves_the_terminator :
    answer (step { afterReset vectorMem with input := [.command 0x830000000000001000#72 [⟨1, 0x1001#32, 0x00#8⟩]] }) =
      some (some 0x2F8D#16, [0x1000, 0x1001]) := by decide
/-- U6: seen too late to matter (section 2.5: 0x6F91). -/
theorem test_racing_write_seen_too_late :
    accAfter (step { afterReset vectorMem with input := [.command 0x830000000000001000#72 [⟨2, 0x1001#32, 0x00#8⟩]] }) =
      some (.value 0x6F91#16) := by decide

/-- Section 3.1, first two steps: after reset, `INIT`, then `FOLD_BYTE 0x31`. -/
theorem test_boot :
    answer (Host.Core.run core 2
      { State.reset with input := [.command 0x800000000000000000#72 [], .command 0x010000000000000031#72 []] }) =
      some (some 0x2F8D#16, []) := by decide

/-- The memory stays canonical when a listed cell is written again. -/
theorem test_memory_write : Memory.write [(1, 0x01), (3, 0x03)] 3 0x04 = [(1, 0x01), (3, 0x04)] := by decide

/-- Rule R53: `bits8(-1)` and `bits16(-2)`; a number outside the type is no literal. -/
theorem test_signedBits :
    (AsmLine.foldI8 .given (-1)).assemble = some (.foldByte .given 0xFF#8) ∧
    (AsmLine.foldI16 .given (-2)).assemble = some (.foldScalar16 .given 0xFFFE#16) ∧
    (AsmLine.foldI8 .given 128).assemble = none := by decide
/-- Rules R53, R94 (e): `bits32(1.0)` and `bits64(1.0)`, however 1.0 is written; section 2.7: -0.0 and a NaN with payload. -/
theorem test_float_images :
    bits32 (.finite false 1 0) = some 0x3F800000#32 ∧ bits32 (.finite false 8 (-3)) = some 0x3F800000#32 ∧
    bits64 (.finite false 1 0) = some 0x3FF0000000000000#64 ∧ bits32 (.finite true 0 5) = some 0x80000000#32 ∧
    bits32 (.nan false 0x400001) = some 0x7FC00001#32 := by decide
/-- binary32's limits (G5): the smallest subnormal number, half of it, the largest number, the next power of two, one bit too many. -/
theorem test_float_limits :
    bits32 (.finite false 1 (-149)) = some 0x00000001#32 ∧ bits32 (.finite false 1 (-150)) = none ∧
    bits32 (.finite false 0xFFFFFF 104) = some 0x7F7FFFFF#32 ∧ bits32 (.finite false 1 128) = none ∧
    bits32 (.finite false 0x1000001 0) = none ∧ bits32 (.infinity true) = some 0xFF800000#32 := by decide

/-! ### Witnesses: the hypotheses of each obligation can be met together, clause by clause -/

theorem witness_DecodeOfEncodeIsTheCommand :
    (Instr.init .omitted 0#16).wellFormed = true ∧ (Instr.foldBytes .omitted 0xFFFFFFFF#32 0xFFFFFFFF#32).wellFormed = true := by
  decide

theorem witness_EncodeOfDecodeKeepsUsedBits : ∃ (w : CmdWord) (i : Instr), decode w = .ok i ∧ encode i ≠ w :=
  ⟨0x80DEADBEEF12345678#72, .init .omitted 0#16, rfl, by decide⟩

theorem witness_IgnoredOperandBitsDoNotMatter :
    ∃ w w' : CmdWord, w ≠ w' ∧ w &&& usedBits w = w' &&& usedBits w' ∧ ∃ i, decode w = .ok i :=
  ⟨0x01AAAAAAAAAAAAAA31#72, 0x010000000000000031#72, by decide, by decide, .foldByte .given 0x31#8, rfl⟩

theorem witness_ReservedWordsAreRefused :
    (∃ w : CmdWord, w.extractLsb' 68 3 ≠ 0#3 ∧ (w.extractLsb' 64 4).toNat < 7) ∧
    ∃ w : CmdWord, w.extractLsb' 68 3 = 0#3 ∧ (w.extractLsb' 64 4).toNat = 7 :=
  ⟨⟨0x110000000000000031#72, by decide⟩, ⟨0x070000000000000000#72, by decide⟩⟩

/-- Each OP, with either S bit. -/
theorem witness_OpcodeMapAndOperandLayout : ∀ op : BitVec 4, op.toNat ≤ 6 → ∀ s : BitVec 1,
    let w : CmdWord := s ++ 0#3 ++ op ++ 0xFEDCBA9876543210#64
    w.extractLsb' 68 3 = 0#3 ∧ w.extractLsb' 64 4 = op ∧ (seedSelOf s = .omitted ↔ w.getLsbD 71 = true) := by decide

theorem witness_InitCreatesTheChecksum : ∃ (i j : Instr) (t : State), i.isFold = false ∧ j.isFold = false ∧ i ≠ j ∧
    execAll [i, j] State.reset = .next t :=
  ⟨.init .omitted 0#16, .init .given 0x1D0F#16, _, rfl, rfl, by decide, rfl⟩

theorem witness_StartsFrom_given : StartsFrom .given (holding 0x1234#16 []) 0x1234#16 := rfl
theorem witness_StartsFrom_omitted : StartsFrom .omitted State.reset 0xFFFF#16 := rfl

/-- `value = lo8(crc_in)`; a zero checksum; the worked example; `ACC` without value. -/
theorem witness_FoldByteFoldsOneByte :
    (StartsFrom .given (holding 0x6F91#16 []) 0x6F91#16 ∧ 0x91#8 = (0x6F91#16).extractLsb' 0 8 ∧ (0x00#8 : Byte) ≠ 0x91#8) ∧
    StartsFrom .given (holding 0x0000#16 []) 0x0000#16 ∧ StartsFrom .omitted State.reset 0xFFFF#16 ∧
    State.reset.acc = .noValue := ⟨⟨rfl, by decide, by decide⟩, rfl, rfl, rfl⟩

/-- An operand equal to `crc_in`, for the three scalar statements too the default seed of their examples. -/
theorem witness_FoldScalar16LowByteFirst :
    StartsFrom .given (holding 0x1234#16 []) 0x1234#16 ∧ StartsFrom .given (holding 0xFFFF#16 []) 0xFFFF#16 := ⟨rfl, rfl⟩
theorem witness_FoldScalar32LowestByteFirst : StartsFrom .given (holding 0xFFFF#16 []) 0xFFFF#16 := rfl
theorem witness_FoldScalar64LowestByteFirst : StartsFrom .omitted (afterReset []) 0xFFFF#16 := rfl

/-- Readable up to the top of the address space: `ptr + len` = 2^32. -/
theorem witness_FoldBytes_readable_top :
    StartsFrom .omitted (afterReset vectorMem) 0xFFFF#16 ∧ 0xFFFFFFFE#32 ≠ 0#32 ∧
    (0xFFFFFFFE#32).toNat + (2#32).toNat = 4294967296 ∧
    ∀ k < (2#32).toNat, (afterReset vectorMem).memRead k ((0xFFFFFFFE#32).toNat + k) = some ((fun _ => 0xFF#8) k) :=
  ⟨rfl, by decide, by decide, by decide⟩
/-- One past the top. -/
theorem witness_FoldBytes_wraps :
    StartsFrom .omitted (afterReset []) 0xFFFF#16 ∧ 0xFFFFFFFE#32 ≠ 0#32 ∧ 4294967296 < (0xFFFFFFFE#32).toNat + (3#32).toNat :=
  ⟨rfl, by decide, by decide⟩
/-- The nine bytes of the worked example. -/
theorem witness_FoldBytes_nine : ∀ k < (9#32).toNat,
    (afterReset vectorMem).memRead k ((0x1000#32).toNat + k) = some (BitVec.ofNat 8 (0x31 + k)) := by decide
/-- Length 1. -/
theorem witness_FoldBytes_one : ∀ k < (1#32).toNat,
    (afterReset vectorMem).memRead k ((0xFFFFFFFF#32).toNat + k) = some ((fun _ => 0xFF#8) k) := by decide
/-- Stuck at the first read, and at the last. -/
theorem witness_FoldBytes_stuck :
    (0 < (1#32).toNat ∧ (afterReset vectorMem).memRead 0 ((0x5000#32).toNat + 0) = none) ∧
    2 < (3#32).toNat ∧ (∀ k < 2, ((afterReset vectorMem).memRead k ((0x3005#32).toNat + k)).isSome) ∧
    (afterReset vectorMem).memRead 2 ((0x3005#32).toNat + 2) = none := by decide

/-- The terminator at the last address. -/
theorem witness_FoldText_top :
    StartsFrom .omitted (afterReset topText) 0xFFFF#16 ∧ 0xFFFFFFFE#32 ≠ 0#32 ∧ (0xFFFFFFFE#32).toNat + 1 < 4294967296 ∧
    (∀ k < 1, (afterReset topText).memRead k ((0xFFFFFFFE#32).toNat + k) = some ((fun _ => 0x41#8) k) ∧ 0x41#8 ≠ 0#8) ∧
    (afterReset topText).memRead 1 ((0xFFFFFFFE#32).toNat + 1) = some 0#8 := ⟨rfl, by decide, by decide, by decide, by decide⟩
/-- The empty text. -/
theorem witness_FoldText_empty : (afterReset topText).memRead 0 ((0xFFFFFFFF#32).toNat + 0) = some 0#8 := by decide
/-- The worked example's nine bytes and terminator. -/
theorem witness_FoldText_nine :
    (∀ k < 9, (afterReset vectorMem).memRead k ((0x1000#32).toNat + k) = some (BitVec.ofNat 8 (0x31 + k)) ∧
      BitVec.ofNat 8 (0x31 + k) ≠ 0#8) ∧
    (afterReset vectorMem).memRead 9 ((0x1000#32).toNat + 9) = some 0#8 := by decide
/-- No terminator up to the top. -/
theorem witness_FoldText_unterminated : ∀ k, (0xFFFFFFFE#32).toNat + k < 4294967296 →
    ∃ b, (afterReset vectorMem).memRead k ((0xFFFFFFFE#32).toNat + k) = some b ∧ b ≠ 0#8 := by
  intro k hk
  have all : ∀ k < 2, (afterReset vectorMem).memRead k ((0xFFFFFFFE#32).toNat + k) = some 0xFF#8 := by decide
  exact ⟨0xFF#8, all k (by simp at hk; omega), by decide⟩
/-- Stuck at the last address, and at the first read. -/
theorem witness_FoldText_stuck :
    ((0xFFFFFFFE#32).toNat + 1 < 4294967296 ∧
      (∀ k < 1, (afterReset [(0xFFFFFFFE, 0x41)]).memRead k ((0xFFFFFFFE#32).toNat + k) = some 0x41#8) ∧
      (afterReset [(0xFFFFFFFE, 0x41)]).memRead 1 ((0xFFFFFFFE#32).toNat + 1) = none) ∧
    (afterReset vectorMem).memRead 0 ((0x5000#32).toNat + 0) = none := by decide

/-- Every command is well typed somewhere, the text up to the last address among them; and one is not. -/
theorem witness_CommandsCompleteExactlyInTheDomain :
    WellTyped (.init .given 0#16) State.reset ∧ WellTyped (.foldByte .omitted 0#8) State.reset ∧
    WellTyped (.foldBytes .omitted 0xFFFFFFFE#32 2#32) (afterReset vectorMem) ∧
    WellTyped (.foldText .omitted 0xFFFFFFFE#32) (afterReset topText) ∧
    WellTyped (.foldScalar64 .given 0#64) (holding 0#16 []) ∧ ¬ WellTyped (.foldByte .given 0#8) State.reset := by
  refine ⟨trivial, .inl rfl, ⟨.inl rfl, .inr ⟨by decide, fun k hk => ⟨0xFF#8, ?_⟩⟩⟩,
    ⟨.inl rfl, .inr ⟨1, by decide, fun k hk => ⟨0x41#8, ?_, by decide⟩, by decide⟩⟩, .inr ⟨0#16, rfl⟩, ?_⟩
  · revert k; decide
  · revert k; decide
  · rintro (h | ⟨v, h⟩) <;> cases h

/-- A command that completes: used by every statement whose hypothesis is that. -/
theorem witness_completes :
    (∃ t, exec (.init .omitted 0#16) State.reset = .next t) ∧
    (∃ t, exec (.foldByte .given 0x31#8) (holding 0xFFFF#16 []) = .next t) ∧
    (∃ t, exec (.foldBytes .given 0x1000#32 2#32) (holding 0xFFFF#16 vectorMem) = .next t) ∧
    (∃ t, exec (.foldText .omitted 0x1008#32) (afterReset vectorMem) = .next t) ∧
    ∃ t, exec (.foldScalar32 .omitted 1#32) State.reset = .next t := ⟨⟨_, rfl⟩, ⟨_, rfl⟩, ⟨_, rfl⟩, ⟨_, rfl⟩, ⟨_, rfl⟩⟩

theorem witness_ResponseIsTheNewAccumulator : ∃ t, exec (.foldScalar16 .omitted 1#16) State.reset = .next t := ⟨_, rfl⟩
theorem witness_HardwareNeverWritesMemory : ∃ t, exec (.foldBytes .omitted 0x1000#32 2#32) (afterReset vectorMem) = .next t :=
  ⟨_, rfl⟩

/-- With a racing write, and with none. -/
theorem witness_OnlyOthersWriteMemoryDuringACommand :
    (∃ (s t : State) (w : CmdWord), s.input = [.command w [⟨1, 0x1001#32, 0x00#8⟩]] ∧ step s = .next t) ∧
    ∃ (s t : State) (w : CmdWord), s.input = [.command w []] ∧ step s = .next t :=
  ⟨⟨{ afterReset vectorMem with input := [.command 0x830000000000001000#72 [⟨1, 0x1001#32, 0x00#8⟩]] }, _, _, rfl, rfl⟩,
    ⟨{ afterReset vectorMem with input := [.command 0x830000000000001008#72 []] }, _, _, rfl, rfl⟩⟩

theorem witness_OnlyBufferCommandsReachMemory :
    (∃ t, (Instr.foldByte .given 0#8).isBuffer = false ∧ exec (.foldByte .given 0#8) (holding 0#16 vectorMem) = .next t) ∧
    (∃ t, 0x3000#32 ≠ 0#32 ∧ 1#32 ≠ 0#32 ∧ exec (.foldBytes .omitted 0x3000#32 1#32) (afterReset vectorMem) = .next t) ∧
    ∃ t, 0x1009#32 ≠ 0#32 ∧ exec (.foldText .omitted 0x1009#32) (afterReset vectorMem) = .next t :=
  ⟨⟨_, rfl, rfl⟩, ⟨_, by decide, by decide, rfl⟩, ⟨_, by decide, rfl⟩⟩

/-- With a pointer and with the null pointer. -/
theorem witness_ReadsAscendEachOnce :
    (∃ t, exec (.foldBytes .omitted 0x3000#32 4#32) (afterReset vectorMem) = .next t ∧ t.reads.length = 4) ∧
    (∃ t, exec (.foldText .omitted 0x3005#32) (afterReset vectorMem) = .next t ∧ t.reads.length = 2) ∧
    (∃ t, exec (.foldBytes .omitted 0#32 5#32) State.reset = .next t) ∧ ∃ t, exec (.foldText .omitted 0#32) State.reset = .next t :=
  ⟨⟨_, rfl, rfl⟩, ⟨_, rfl, rfl⟩, ⟨_, rfl⟩, ⟨_, rfl⟩⟩

theorem witness_StuckExactlyAtAnUnreadableAddress :
    exec (.foldBytes .omitted 0x3005#32 3#32) (afterReset vectorMem) = .fault (.stuckRead [0x3005, 0x3006] 0x3007) ∧
    exec (.foldText .omitted 0x5000#32) (afterReset vectorMem) = .fault (.stuckRead [] 0x5000) := ⟨rfl, rfl⟩

theorem witness_NoValueUntilACommandWritesOne :
    (State.reset.acc = .noValue ∧ (Instr.foldText .given 0#32).isFold = true ∧ (Instr.foldText .given 0#32).sel = .given) ∧
    ∃ t, exec (.foldByte .omitted 0#8) State.reset = .next t := ⟨⟨rfl, rfl, rfl⟩, ⟨_, rfl⟩⟩

theorem witness_DefaultFormsDoNotReadAcc :
    (Instr.init .given 1#16).isFold = false ∧ (Instr.foldText .omitted 1#32).sel = .omitted := ⟨rfl, rfl⟩

theorem witness_DefaultFormIsInitThenChainedForm : (Instr.foldBytes .given 0x1000#32 4#32).isFold = true := rfl

/-- Two different states that agree on `ACC` and on the two cells read. -/
theorem witness_ResponseDependsOnSeedOperandAndBytesRead :
    ∃ (s s' t : State), s ≠ s' ∧ exec (.foldBytes .given 0x1000#32 2#32) s = .next t ∧
      startCrc (.foldBytes .given 0x1000#32 2#32) s' = startCrc (.foldBytes .given 0x1000#32 2#32) s ∧
      ∀ (k : Nat) (h : k < t.reads.length), s'.memRead k t.reads[k] = s.memRead k t.reads[k] :=
  ⟨holding 7#16 [(0x1000, 0x31), (0x1001, 0x32)], holding 7#16 [(0x1000, 0x31), (0x1001, 0x32), (0x1002, 0x33)], _,
    by decide, rfl, rfl, by decide⟩

/-- A chain suspended in front of a command that completes, of one that is stuck, of one without meaning. -/
theorem witness_SuspendAndResumeIsExact :
    (holding 0x8B13#16 vectorMem).acc = .value 0x8B13#16 ∧ (holding 0x3EA8#16 vectorMem).mem = (holding 0x8B13#16 vectorMem).mem ∧
    (holding 0x3EA8#16 vectorMem).race = (holding 0x8B13#16 vectorMem).race ∧
    (∃ t, exec (.foldBytes .given 0x1004#32 5#32) (holding 0x8B13#16 vectorMem) = .next t) ∧
    (∃ f, exec (.foldBytes .given 0x5000#32 1#32) (holding 0x8B13#16 vectorMem) = .fault f) ∧
    ∃ e, exec (.foldBytes .given 0xFFFFFFFE#32 3#32) (holding 0x8B13#16 vectorMem) = .refused e :=
  ⟨rfl, rfl, rfl, ⟨_, rfl⟩, ⟨_, rfl⟩, ⟨_, rfl⟩⟩

theorem witness_BufferFoldDecomposesIntoBytes :
    (holding 0xFFFF#16 vectorMem).acc = .value 0xFFFF#16 ∧ 0x3000#32 ≠ 0#32 ∧
    (0x3000#32).toNat + (2#32).toNat ≤ 4294967296 ∧
    ∀ k < (2#32).toNat, (holding 0xFFFF#16 vectorMem).memRead k ((0x3000#32).toNat + k) =
      some ((fun k => if k = 0 then 0x85#8 else 0x52#8) k) := ⟨rfl, by decide, by decide, by decide⟩

/-- A buffer that ends at the top, split in the middle, at its start and at its end. -/
theorem witness_BufferFoldSplits :
    (holding 0#16 vectorMem).race = [] ∧ (holding 0#16 vectorMem).acc = .value 0#16 ∧ 0xFFFFFFFE#32 ≠ 0#32 ∧
    (0xFFFFFFFE#32).toNat + (2#32).toNat ≤ 4294967296 ∧
    (∀ j < (2#32).toNat, ((holding 0#16 vectorMem).mem.read ((0xFFFFFFFE#32).toNat + j)).isSome) ∧
    (0#32).toNat ≤ (2#32).toNat ∧ (1#32).toNat ≤ (2#32).toNat ∧ (2#32).toNat ≤ (2#32).toNat :=
  ⟨rfl, rfl, by decide, by decide, by decide, by decide, by decide, by decide⟩

theorem witness_TextFoldsAsBuffer : ∃ t, 0x3000#32 ≠ 0#32 ∧ exec (.foldText .omitted 0x3000#32) (afterReset vectorMem) = .next t :=
  ⟨_, by decide, rfl⟩

/-- Eight cells that hold a scalar in little-endian order; with them the first two and the first four do. -/
theorem witness_ScalarFoldsAsLittleEndianBuffer :
    StartsFrom .omitted (afterReset vectorMem) 0xFFFF#16 ∧ 0x1000#32 ≠ 0#32 ∧ (0x1000#32).toNat + 8 ≤ 4294967296 ∧
    ∀ k < 8, (afterReset vectorMem).memRead k ((0x1000#32).toNat + k) =
      some (BitVec.ofNat 8 ((0x3837363534333231#64).toNat / 256 ^ k)) := ⟨rfl, by decide, by decide, by decide⟩

theorem witness_CommandsRefineTheSourceCalls :
    (holding 0#16 vectorMem).mem.wf ∧ (holding 0#16 vectorMem).race = [] ∧
    ∃ t, execAll (SourceCall.foldText 0x3000#32 (.explicit 0x1D0F#16)).commands (holding 0#16 vectorMem) = .next t :=
  ⟨by decide, rfl, ⟨_, rfl⟩⟩

/-- The loop of each kind of command finishes, and of one is stuck. -/
theorem witness_SequencerRefinesTheAtomicCommand :
    (∃ q, startCrc (.foldText .omitted 0x3000#32) (afterReset vectorMem) = some 0xFFFF#16 ∧
      seqSource (.foldText .omitted 0x3000#32) = some (.text 0x3000#32) ∧
      Sequencer.run (afterReset vectorMem) (.text 0x3000#32) 6 (Sequencer.start 0xFFFF#16) = .finished q) ∧
    ∃ q, seqSource (.foldBytes .omitted 0x3005#32 3#32) = some (.buffer 0x3005#32 3) ∧
      Sequencer.run (afterReset vectorMem) (.buffer 0x3005#32 3) 4 (Sequencer.start 0xFFFF#16) = .stuck q 0x3007 :=
  ⟨⟨_, rfl, rfl, rfl⟩, ⟨_, rfl, rfl⟩⟩

/-- The loop of every command finishes somewhere, with the null pointer too. -/
theorem witness_KernelAndReadCounts :
    (∃ q, Sequencer.run State.reset (.operand []) 1 (Sequencer.start 0#16) = .finished q) ∧
    (∃ q, Sequencer.run State.reset (.operand [0x31#8]) 2 (Sequencer.start 0#16) = .finished q) ∧
    (∃ q, Sequencer.run (afterReset vectorMem) (.buffer 0x3000#32 4) 5 (Sequencer.start 0#16) = .finished q) ∧
    (∃ q, Sequencer.run (afterReset topText) (.text 0xFFFFFFFE#32) 2 (Sequencer.start 0#16) = .finished q) ∧
    (∃ q, Sequencer.run State.reset (.operand (leBytes 8 0x0123456789ABCDEF#64)) 9 (Sequencer.start 0#16) = .finished q) ∧
    seqSource (.init .omitted 0#16) = some (.operand []) ∧ seqSource (.foldText .given 0#32) = some (.operand []) :=
  ⟨⟨_, rfl⟩, ⟨_, rfl⟩, ⟨_, rfl⟩, ⟨_, rfl⟩, ⟨_, rfl⟩, rfl, rfl⟩

/-- A word that completes, one that is stuck, one without meaning, a reserved one, and nothing presented. -/
theorem witness_StepRunsTheDecodedCommand :
    (decode 0x830000000000003000#72 = .ok (.foldText .omitted 0x3000#32) ∧
      ∃ t, exec (.foldText .omitted 0x3000#32) (afterReset vectorMem) = .next t) ∧
    (decode 0x820000000100005000#72 = .ok (.foldBytes .omitted 0x5000#32 1#32) ∧
      ∃ f, exec (.foldBytes .omitted 0x5000#32 1#32) (afterReset vectorMem) = .fault f) ∧
    (decode 0x010000000000000031#72 = .ok (.foldByte .given 0x31#8) ∧
      ∃ r, exec (.foldByte .given 0x31#8) State.reset = .refused r) ∧
    (∃ e, decode 0x070000000000000000#72 = .error e) ∧ State.reset.input = [] :=
  ⟨⟨rfl, _, rfl⟩, ⟨rfl, _, rfl⟩, ⟨rfl, _, rfl⟩, ⟨_, rfl⟩, rfl⟩

theorem witness_ResetLeavesTheResetState : ∃ s : State, s.acc = .value 7#16 ∧ s.input = [.reset] :=
  ⟨{ holding 7#16 vectorMem with input := [.reset] }, rfl, rfl⟩

/-- A command abandoned in progress, one abandoned when stuck, one that needs a value in `ACC`. -/
theorem witness_ResetAbandonsTheCommandInProgress :
    (∃ (s t : State), s.input = [.commandReset 0x830000000000003000#72 [] 1] ∧
      decode 0x830000000000003000#72 = .ok (.foldText .omitted 0x3000#32) ∧
      exec (.foldText .omitted 0x3000#32) { s with input := [], race := [], acc := .noValue } = .next t) ∧
    (∃ s : State, s.input = [.commandReset 0x820000000300003005#72 [] 2] ∧
      decode 0x820000000300003005#72 = .ok (.foldBytes .omitted 0x3005#32 3#32) ∧
      exec (.foldBytes .omitted 0x3005#32 3#32) { s with input := [], race := [], acc := .noValue } =
        .fault (.stuckRead [0x3005, 0x3006] 0x3007)) ∧
    ∃ (s t : State), s.input = [.commandReset 0x030000000000003000#72 [] 1] ∧ s.acc = .noValue ∧
      decode 0x030000000000003000#72 = .ok (.foldText .given 0x3000#32) ∧
      exec (.foldText .given 0x3000#32) { s with input := [], race := [], acc := .value 7#16 } = .next t :=
  ⟨⟨{ afterReset vectorMem with input := [.commandReset 0x830000000000003000#72 [] 1] }, _, rfl, rfl, rfl⟩,
    ⟨{ afterReset vectorMem with input := [.commandReset 0x820000000300003005#72 [] 2] }, rfl, rfl, rfl⟩,
    ⟨{ afterReset vectorMem with input := [.commandReset 0x030000000000003000#72 [] 1] }, _, rfl, rfl, rfl, rfl⟩⟩
/-- A text without terminator (its cells: `witness_FoldText_unterminated`), a buffer past the top, a reserved word. -/
theorem witness_ResetAbandonsTheCommandInProgress_without_end :
    (decode 0x8300000000FFFFFFFE#72 = .ok (.foldText .omitted 0xFFFFFFFE#32) ∧ 0xFFFFFFFE#32 ≠ 0#32) ∧
    (decode 0x8200000003FFFFFFFE#72 = .ok (.foldBytes .omitted 0xFFFFFFFE#32 3#32) ∧
      4294967296 < (0xFFFFFFFE#32).toNat + (3#32).toNat) ∧
    ∃ e, decode 0x070000000000000000#72 = .error e := ⟨⟨rfl, by decide⟩, ⟨rfl, by decide⟩, ⟨_, rfl⟩⟩

theorem witness_AccHoldsAValueUntilReset :
    ∃ s t : State, s.acc = .value 7#16 ∧ ¬ ResetNext s ∧ step s = .next t ∧ t ≠ s :=
  ⟨{ holding 7#16 [] with input := [.command 0x010000000000000031#72 []] }, _, rfl, fun h => h, rfl, by decide⟩

/-- A command with its duties kept while another cell is written; and the step it makes. -/
theorem witness_DutiesKeptMeansNoStop :
    ∃ s t : State, DutyKept s ∧ s.input = [.command 0x820000000100003005#72 [⟨0, 0x3006#32, 0x42#8⟩]] ∧ step s = .next t := by
  refine ⟨{ afterReset vectorMem with input := [.command 0x820000000100003005#72 [⟨0, 0x3006#32, 0x42#8⟩]] }, _,
    ⟨⟨.foldBytes .omitted 0x3005#32 1#32, rfl, .inl rfl, .inr ⟨by decide, ?_⟩⟩, by unfold CellsStable; decide⟩, rfl, rfl⟩
  intro k hk
  have all : ∀ k < 1, (afterReset vectorMem).memRead k (ea 0x3005#32 k) = some 0x41#8 := by decide
  exact ⟨_, all k hk⟩
/-- A command that goes on although a cell it reads is written. -/
theorem witness_DutiesKeptMeansNoStop_racing :
    ∃ s t : State, s.input = [.command 0x820000000100003005#72 [⟨0, 0x3005#32, 0x42#8⟩]] ∧ step s = .next t :=
  ⟨{ afterReset vectorMem with input := [.command 0x820000000100003005#72 [⟨0, 0x3005#32, 0x42#8⟩]] }, _, rfl, rfl⟩

/-- A state with the invariant, after a text, that takes a step with another text. -/
theorem witness_InvariantKeptByEveryStep : ∃ s t : State, s.Inv ∧ s.reads ≠ [] ∧ step s = .next t ∧ t.reads ≠ s.reads :=
  ⟨{ acc := .value 0x5C0A#16, rsp := some 0x5C0A#16, reads := [0x3005, 0x3006], mem := vectorMem, race := [],
     input := [.command 0x030000000000003000#72 []] }, _,
    ⟨by decide, rfl, by decide, by decide, rfl⟩, by decide, rfl, by decide⟩

theorem witness_HostWritesAreReadBack :
    (∃ s : State, s.input = [.write 0xFFFFFFFF#32 0x41#8]) ∧ ∃ s : State, s.input = [.withdraw 0x1000#32] ∧ s.mem = vectorMem :=
  ⟨⟨{ State.reset with input := [.write 0xFFFFFFFF#32 0x41#8] }, rfl⟩,
    ⟨{ afterReset vectorMem with input := [.withdraw 0x1000#32] }, rfl, rfl⟩⟩

/-- A read that a racing write changes, the read before it that it does not, and a read of a cell nobody writes. -/
theorem witness_ReadsReturnAValueTheCellHeld :
    let s : State := { afterReset vectorMem with race := [⟨1, 0x1001#32, 0x00#8⟩] }
    s.memRead 1 0x1001 = some 0x00#8 ∧ s.memRead 0 0x1001 = some 0x32#8 ∧ ∀ w ∈ s.race, w.addr.toNat ≠ 0x1000 := by decide

/-- Normal, subnormal, and a value written with another mantissa. -/
theorem witness_FloatImagesAreOfTheirValues :
    bits32 (.finite false 3 (-1)) = some 0x3FC00000#32 ∧ bits32 (.finite true 4 (-150)) = some 0x80000002#32 ∧
    bits64 (.finite false 2 (-1075)) = some 0x0000000000000001#64 ∧ (∃ b : Binary32, b.value.Same b.value) ∧
    ∃ b : Binary64, b.value.Same b.value :=
  ⟨by decide, by decide, by decide, ⟨⟨0#1, 127#8, 0#23⟩, rfl, rfl⟩, ⟨⟨0#1, 1023#11, 0#52⟩, rfl, rfl⟩⟩

end Sys2Proof.Tests
end

/-! # A command as one run of bytes

Every command starts from a checksum (`startCrc`), takes a run of bytes from its operand or from memory (`commandRun`), and folds
it. `exec_of_startCrc_none` and `exec_of_startCrc_some` tie this reading to `exec`; the claims about state follow from it. -/

namespace Sys2Proof.Machine

/-- The bytes a command folds, as the run that brings them: read from no cell when they are in the operand field, none at all for
INIT and for a null pointer. There is no run for a buffer past the top of the address space (rule R29). -/
def commandRun (i : Instr) (s : State) : Option Run :=
  match i with
  | .init _ _ => some ⟨[], [], .complete⟩
  | .foldByte _ value => some ⟨[value], [], .complete⟩
  | .foldBytes _ ptr len =>
    if ptr = Config.nullAddr then some ⟨[], [], .complete⟩
    else if Config.addrLimit < ptr.toNat + len.toNat then none
    else some (readCells s ptr len.toNat 0)
  | .foldText _ ptr =>
    if ptr = Config.nullAddr then some ⟨[], [], .complete⟩
    else some (readText s ptr (Config.addrLimit - ptr.toNat) 0)
  | .foldScalar16 _ value => some ⟨leBytes 2 value, [], .complete⟩
  | .foldScalar32 _ value => some ⟨leBytes 4 value, [], .complete⟩
  | .foldScalar64 _ value => some ⟨leBytes 8 value, [], .complete⟩

/-- The end of a command that starts from `crc`, by its run. -/
def finishCommand (s : State) (crc : Word) : Option Run → Result
  | none => .refused .bufferWraps
  | some r => finishRun s crc r

/-! ### The starting checksum -/

theorem crcIn_eq_none_iff {sel : SeedSel} {s : State} : crcIn sel s = none ↔ s.acc = .noValue ∧ sel = .given := by
  cases sel with
  | given => simp [Acc.value?_eq_none]
  | omitted => simp

/-- A fold starts from its `crc_in` (rule R44). -/
theorem startCrc_of_isFold {i : Instr} (h : i.isFold = true) (s : State) : startCrc i s = crcIn i.sel s := by
  cases i with
  | init => cases h
  | _ => rfl

/-- INIT always has a checksum to start from (rule R70). -/
theorem startCrc_init_ne_none (sel : SeedSel) (seed : Word) (s : State) : startCrc (.init sel seed) s ≠ none := by
  cases sel <;> simp [startCrc]

/-- Only a fold with S = 0 can want for a checksum, and does while `ACC` holds none (rule R17). -/
theorem startCrc_eq_none_iff {i : Instr} {s : State} :
    startCrc i s = none ↔ s.acc = .noValue ∧ i.isFold = true ∧ i.sel = .given := by
  cases hi : i.isFold with
  | true => simp [startCrc_of_isFold hi, crcIn_eq_none_iff]
  | false =>
    cases i with
    | init sel seed => simp [startCrc_init_ne_none]
    | _ => cases hi

/-! ### `exec` by the starting checksum and the run -/

theorem withCrcIn_of_none {sel : SeedSel} {s : State} (h : crcIn sel s = none) (k : Word → Result) :
    withCrcIn sel s k = .refused .accNoValue := by
  simp [withCrcIn, h]

/-- Without a checksum to start from a command is refused, whatever its operand (rule R104). -/
theorem exec_of_startCrc_none {i : Instr} {s : State} (h : startCrc i s = none) : exec i s = .refused .accNoValue := by
  cases i with
  | init sel seed => exact absurd h (startCrc_init_ne_none sel seed s)
  | _ => exact withCrcIn_of_none h _

/-- With a checksum to start from a command folds its run of bytes into it. -/
theorem exec_of_startCrc_some {i : Instr} {s : State} {crc : Word} (h : startCrc i s = some crc) :
    exec i s = finishCommand s crc (commandRun i s) := by
  cases i with
  | init sel seed => cases sel <;> cases h <;> rfl
  | foldByte | foldScalar16 | foldScalar32 | foldScalar64 => exact withCrcIn_of_some h _
  | foldBytes | foldText =>
    refine (withCrcIn_of_some h _).trans ?_
    simp only [commandRun]
    split_ifs <;> rfl

/-- The end of a command that has a checksum is not the refusal for want of one. -/
theorem finishCommand_ne_accNoValue (s : State) (crc : Word) (r : Option Run) :
    finishCommand s crc r ≠ .refused .accNoValue := by
  cases r with
  | none => simp [finishCommand]
  | some r =>
    simp only [finishCommand]
    rcases finishRun_cases s crc r with ⟨-, e⟩ | ⟨a, -, e⟩ | ⟨-, e⟩ <;> simp [e]

theorem finishCommand_eq_next_iff {s t : State} {crc : Word} {o : Option Run} :
    finishCommand s crc o = .next t ↔
      ∃ r, o = some r ∧ r.ending = .complete ∧ t = s.respond (foldList crc r.bytes) r.reads := by
  cases o with
  | none => simp [finishCommand]
  | some r =>
    simp only [finishCommand]
    rcases finishRun_cases s crc r with ⟨h, e⟩ | ⟨a, h, e⟩ | ⟨h, e⟩ <;> simp [e, h, eq_comm]

/-- A command completes exactly when it has a checksum to start from and its run is complete; then it answers with the fold. -/
theorem exec_eq_next_iff {i : Instr} {s t : State} :
    exec i s = .next t ↔ ∃ crc r, startCrc i s = some crc ∧ commandRun i s = some r ∧ r.ending = .complete ∧
      t = s.respond (foldList crc r.bytes) r.reads := by
  cases h : startCrc i s with
  | none => simp [exec_of_startCrc_none h]
  | some crc => simp [exec_of_startCrc_some h, finishCommand_eq_next_iff]

/-- A command is refused for want of a checksum exactly when it has none to start from. -/
theorem exec_eq_accNoValue_iff {i : Instr} {s : State} : exec i s = .refused .accNoValue ↔ startCrc i s = none := by
  cases h : startCrc i s with
  | none => simp [exec_of_startCrc_none h]
  | some crc => simp [exec_of_startCrc_some h, finishCommand_ne_accNoValue]

/-- Settles O27: a command that finds no checksum is refused before anything else, and one that completes writes its response to
`ACC`. -/
theorem noValueUntilACommandWritesOne : Obligations.NoValueUntilACommandWritesOne := by
  refine ⟨rfl, fun i s => exec_eq_accNoValue_iff.trans startCrc_eq_none_iff, fun i s t h => ?_⟩
  obtain ⟨r, rs, rfl⟩ := exec_next_shape h
  simp

/-! ### A complete run is a function of the bytes it read (rule R19) -/

/-- `s'` gives the same byte at each read of the list, made as reads number `i`, `i + 1`, and so on. -/
def SameBytesAt (s s' : State) (i : Nat) (reads : List Nat) : Prop :=
  ∀ (k : Nat) (h : k < reads.length), s'.memRead (i + k) reads[k] = s.memRead (i + k) reads[k]

/-- The reads of a list agree one by one. -/
theorem sameBytesAt_cons {s s' : State} {i a : Nat} {reads : List Nat} (h : SameBytesAt s s' i (a :: reads)) :
    s'.memRead i a = s.memRead i a ∧ SameBytesAt s s' (i + 1) reads := by
  refine ⟨h 0 (by simp), fun k hk => ?_⟩
  have := h (k + 1) (by simpa using hk)
  rwa [show i + (k + 1) = i + 1 + k by omega] at this

theorem readCells_congr {s s' : State} {ptr : Addr} {n i : Nat} (hc : (readCells s ptr n i).ending = .complete)
    (h : SameBytesAt s s' i (readCells s ptr n i).reads) : readCells s' ptr n i = readCells s ptr n i := by
  induction n generalizing i with
  | zero => rfl
  | succ n ih =>
    cases hb : s.memRead i (ea ptr i) with
    | none => simp [readCells, hb] at hc
    | some b =>
      simp only [readCells, hb, cons_ending, cons_reads] at hc h ⊢
      obtain ⟨h0, hs⟩ := sameBytesAt_cons h
      simp only [h0, hb, ih hc hs]

theorem readText_congr {s s' : State} {ptr : Addr} {fuel i : Nat} (hc : (readText s ptr fuel i).ending = .complete)
    (h : SameBytesAt s s' i (readText s ptr fuel i).reads) : readText s' ptr fuel i = readText s ptr fuel i := by
  induction fuel generalizing i with
  | zero => rfl
  | succ fuel ih =>
    cases hb : s.memRead i (ea ptr i) with
    | none => simp [readText, hb] at hc
    | some b =>
      by_cases hz : b = 0#8
      · simp only [readText, hb, hz, if_true] at h ⊢
        obtain ⟨h0, -⟩ := sameBytesAt_cons h
        simp [h0, hb, hz]
      · simp only [readText, hb, hz, if_false, cons_ending, cons_reads] at hc h ⊢
        obtain ⟨h0, hs⟩ := sameBytesAt_cons h
        simp only [h0, hb, hz, if_false, ih hc hs]

/-- A command's complete run is the same in every state that gives the bytes it read. -/
theorem commandRun_congr {i : Instr} {s s' : State} {r : Run} (hr : commandRun i s = some r) (hc : r.ending = .complete)
    (h : SameBytesAt s s' 0 r.reads) : commandRun i s' = some r := by
  cases i with
  | init | foldByte | foldScalar16 | foldScalar32 | foldScalar64 => exact hr
  | foldBytes sel ptr len =>
    simp only [commandRun] at hr ⊢
    split_ifs at hr ⊢ with hp hw
    · exact hr
    · cases hr
      rw [readCells_congr hc h]
  | foldText sel ptr =>
    simp only [commandRun] at hr ⊢
    split_ifs at hr ⊢ with hp
    · exact hr
    · cases hr
      rw [readText_congr hc h]

/-- Settles O30: the same starting checksum and the same run of bytes give the same fold. -/
theorem responseDependsOnSeedOperandAndBytesRead : Obligations.ResponseDependsOnSeedOperandAndBytesRead := by
  intro i s s' t ht hcrc hread
  obtain ⟨crc, r, hs, hr, hc, rfl⟩ := exec_eq_next_iff.1 ht
  have hr' : commandRun i s' = some r := commandRun_congr hr hc fun k hk => by simpa using hread k hk
  exact ⟨_, exec_eq_next_iff.2 ⟨crc, r, hcrc.trans hs, hr', hc, rfl⟩, rfl, rfl, rfl⟩

/-! ### The response of a list of commands -/

theorem execAll_cons_of_next {i : Instr} {s t : State} (h : exec i s = .next t) (is : List Instr) :
    execAll (i :: is) s = execAll is t := by
  simp [execAll, h]

/-- A list of commands that completes has completed its first one. -/
theorem execAll_cons_eq_next {i : Instr} {is : List Instr} {s t : State} (h : execAll (i :: is) s = .next t) :
    ∃ u, exec i s = .next u ∧ execAll is u = .next t := by
  cases he : exec i s with
  | next u => exact ⟨u, rfl, execAll_cons_of_next he is ▸ h⟩
  | fault | refused => simp [execAll, he] at h

/-- What the last command of a list answers is what it leaves in `ACC` (rule R41). -/
theorem execAll_rsp_eq_acc {is : List Instr} {s t : State} (hne : is ≠ []) (h : execAll is s = .next t) :
    t.acc.value? = t.rsp := by
  induction is generalizing s with
  | nil => exact absurd rfl hne
  | cons i is ih =>
    obtain ⟨u, hu, ht⟩ := execAll_cons_eq_next h
    cases is with
    | nil =>
      obtain ⟨r, rs, rfl⟩ := exec_next_shape hu
      cases ht
      rfl
    | cons j js => exact ih (List.cons_ne_nil j js) ht

theorem lastResponse_of_next {is : List Instr} {s t : State} (h : execAll is s = .next t) : lastResponse is s = t.rsp := by
  simp [lastResponse, h]

/-- The checksum a run gives from `crc`; none where the run meets a stop. -/
def Run.checksum (crc : Word) (r : Run) : Option Word :=
  if r.ending = .complete then some (foldList crc r.bytes) else none

/-- The response of one command, by its starting checksum and its run. -/
theorem lastResponse_singleton (i : Instr) (s : State) :
    lastResponse [i] s = (startCrc i s).bind fun crc => (commandRun i s).bind (Run.checksum crc) := by
  cases h : startCrc i s with
  | none => simp [lastResponse, execAll, exec_of_startCrc_none h]
  | some crc =>
    have e := exec_of_startCrc_some h
    cases hr : commandRun i s with
    | none => simp [lastResponse, execAll, e, hr, finishCommand]
    | some r =>
      rw [hr, finishCommand] at e
      rcases finishRun_cases s crc r with ⟨hc, er⟩ | ⟨a, hc, er⟩ | ⟨hc, er⟩ <;>
        simp [lastResponse, execAll, e, er, hc, Run.checksum]

/-! ### The runs of a command against the source's functions (rules R18, R51) -/

/-- The bytes of an operand field are folded whole: no read can stop them. -/
@[simp] theorem Run.checksum_operand (crc : Word) (bytes : List Byte) :
    Run.checksum crc ⟨bytes, [], .complete⟩ = some (foldList crc bytes) := rfl

theorem sourceFoldScalar_eq {w : Nat} (n : Nat) (v : BitVec w) (crc : Word) :
    sourceFoldScalar n v crc = foldList crc (leBytes n v) := sourceFold_eq _ _

/-- The source's fold of readable cells is the fold of their bytes. -/
theorem sourceFoldBytes_some {m : Memory} {ptr : Addr} (hp : ptr ≠ Config.nullAddr) {n : Nat} {M : Nat → Byte}
    (h : ∀ k < n, m.read (ptr.toNat + k) = some (M k)) (crc : Word) :
    sourceFoldBytes m ptr n crc = some (foldList crc ((List.range n).map M)) := by
  simp [sourceFoldBytes, hp, sourceBuffer_some M n _ h, sourceFold_eq]

/-- The source's fold over an unreadable cell is not well typed. -/
theorem sourceFoldBytes_none {m : Memory} {ptr : Addr} (hp : ptr ≠ Config.nullAddr) {n k : Nat} (hk : k < n)
    (h : m.read (ptr.toNat + k) = none) (crc : Word) : sourceFoldBytes m ptr n crc = none := by
  simp [sourceFoldBytes, hp, sourceBuffer_none hk h]

/-- FOLD_BYTES's run gives what `fold_bytes` returns. Past the top of the address space both have nothing: a canonical memory has
no cell there. -/
theorem commandRun_foldBytes_checksum {s : State} (hm : s.mem.wf) (hr : s.race = []) (sel : SeedSel) (ptr : Addr) (len : Len)
    (crc : Word) :
    (commandRun (.foldBytes sel ptr len) s).bind (Run.checksum crc) = sourceFoldBytes s.mem ptr len.toNat crc := by
  simp only [commandRun]
  split_ifs with hp hw
  · simp [sourceFoldBytes, hp]
  · have hlt : ptr.toNat < Config.addrLimit := ptr.isLt
    have hk : Config.addrLimit - ptr.toNat < len.toNat := by omega
    have ha : Config.addrLimit ≤ ptr.toNat + (Config.addrLimit - ptr.toNat) := by omega
    exact (sourceFoldBytes_none hp hk (Memory.read_of_limit_le hm ha) crc).symm
  · rcases readCells_cases s ptr len.toNat 0 with ⟨M, hM⟩ | ⟨k, hk, hpre, hs⟩
    · rw [readCells_complete s ptr M _ 0 hM]
      simp only [Nat.zero_add, memRead_of_race_nil hr, ea] at hM ⊢
      simp [Run.checksum, sourceFoldBytes_some hp hM]
    · have he := (readCells_stuck s ptr k _ 0 hk hpre hs).1
      simp only [Nat.zero_add, memRead_of_race_nil hr, ea] at hs
      simp [Run.checksum, he, sourceFoldBytes_none hp hk hs]

/-- FOLD_TEXT's run gives what `fold_text` returns: the one pass finds the terminator that the source measures first. -/
theorem commandRun_foldText_checksum {s : State} (hr : s.race = []) (sel : SeedSel) (ptr : Addr) (crc : Word) :
    (commandRun (.foldText sel ptr) s).bind (Run.checksum crc) = sourceFoldText s.mem ptr crc := by
  simp only [commandRun]
  split_ifs with hp
  · simp [sourceFoldText, hp]
  · rcases readText_cases s ptr (Config.addrLimit - ptr.toNat) 0 with ⟨n, hn, M, hM, h0⟩ | ⟨k, hk, hpre, hs⟩ | hu
    · rw [readText_complete s ptr M n _ 0 hn hM h0]
      simp only [Nat.zero_add, memRead_of_race_nil hr, ea] at hM h0 ⊢
      have hl := sourceTextLength_some hn (fun k hk => ⟨M k, hM k hk⟩) h0
      simp [Run.checksum, sourceFoldText, hp, hl, sourceFoldBytes_some hp fun k hk => (hM k hk).1]
    · have he := (readText_stuck s ptr k _ 0 hk hpre hs).1
      simp only [Nat.zero_add, memRead_of_race_nil hr, ea] at hpre hs
      simp [Run.checksum, he, sourceFoldText, hp, sourceTextLength_none_of_unreadable hk hpre hs]
    · have he := readText_unterminated s ptr _ 0 hu
      simp only [Nat.zero_add, memRead_of_race_nil hr, ea] at hu
      simp [Run.checksum, he, sourceFoldText, hp, sourceTextLength_none_of_no_terminator hu]

/-! ### The commands of a call (rule R51) -/

theorem CrcArg.commands_ne_nil (fold : SeedSel → Instr) (crc : CrcArg) : crc.commands fold ≠ [] := by
  cases crc <;> exact List.cons_ne_nil _ _

theorem SourceCall.commands_ne_nil (c : SourceCall) : c.commands ≠ [] := by
  cases c with
  | init seed => cases seed <;> exact List.cons_ne_nil _ _
  | _ => simp [SourceCall.commands, CrcArg.commands_ne_nil]

/-- The three forms of a call's `crc` argument, at once: if one fold command folds from its `crc_in` as `f` does, over memory `m`
that nobody writes, the commands of the call fold from the argument as `f` does. -/
theorem lastResponse_crcArg_commands {fold : SeedSel → Instr} {f : Word → Option Word} {m : Memory}
    (h : ∀ sel s, s.mem = m → s.race = [] → lastResponse [fold sel] s = (crcIn sel s).bind f)
    {s : State} (hm : s.mem = m) (hr : s.race = []) (crc : CrcArg) :
    lastResponse (crc.commands fold) s = (crc.value s.acc.value?).bind f := by
  cases crc with
  | omitted => exact h .omitted s hm hr
  | running => exact h .given s hm hr
  | explicit seed => exact h .given (s.respond seed []) hm hr

/-- The three forms of the `crc` argument for a command whose bytes are in its operand field and are folded as `g` does. -/
theorem lastResponse_operand_commands {fold : SeedSel → Instr} {bytes : List Byte} {g : Word → Word}
    (hs : ∀ sel s, startCrc (fold sel) s = crcIn sel s)
    (hb : ∀ sel s, commandRun (fold sel) s = some ⟨bytes, [], .complete⟩) (hg : ∀ crc, g crc = foldList crc bytes)
    {s : State} (hr : s.race = []) (crc : CrcArg) :
    lastResponse (crc.commands fold) s = (crc.value s.acc.value?).map g := by
  rw [Option.map_eq_bind]
  refine lastResponse_crcArg_commands (fun sel u _ _ => ?_) rfl hr crc
  simp [lastResponse_singleton, hs, hb, hg]

/-- The last response of a call's commands is its return value. -/
theorem lastResponse_commands (c : SourceCall) {s : State} (hm : s.mem.wf) (hr : s.race = []) :
    lastResponse c.commands s = c.returns s.mem s.acc.value? := by
  cases c with
  | init seed => cases seed <;> rfl
  | foldByte value crc =>
    exact lastResponse_operand_commands (fold := (.foldByte · value)) (fun _ _ => rfl) (fun _ _ => rfl) (fun _ => rfl) hr crc
  | foldBytes ptr n crc =>
    refine lastResponse_crcArg_commands (fold := (.foldBytes · ptr n)) (fun sel u hu hru => ?_) rfl hr crc
    simp only [lastResponse_singleton, commandRun_foldBytes_checksum (hu ▸ hm) hru, hu]
    rfl
  | foldText ptr crc =>
    refine lastResponse_crcArg_commands (fold := (.foldText · ptr)) (fun sel u hu hru => ?_) rfl hr crc
    simp only [lastResponse_singleton, commandRun_foldText_checksum hru, hu]
    rfl
  | foldScalar16 value crc =>
    exact lastResponse_operand_commands (fold := (.foldScalar16 · value)) (fun _ _ => rfl) (fun _ _ => rfl)
      (sourceFoldScalar_eq 2 value) hr crc
  | foldScalar32 value crc =>
    exact lastResponse_operand_commands (fold := (.foldScalar32 · value)) (fun _ _ => rfl) (fun _ _ => rfl)
      (sourceFoldScalar_eq 4 value) hr crc
  | foldScalar64 value crc =>
    exact lastResponse_operand_commands (fold := (.foldScalar64 · value)) (fun _ _ => rfl) (fun _ _ => rfl)
      (sourceFoldScalar_eq 8 value) hr crc

/-- Settles O37: the last response is the call's return value, and the last command leaves its response in `ACC`. -/
theorem commandsRefineTheSourceCalls : Obligations.CommandsRefineTheSourceCalls := by
  intro c s hm hr
  refine ⟨lastResponse_commands c hm hr, fun t ht => ?_⟩
  calc t.acc.value? = t.rsp := execAll_rsp_eq_acc c.commands_ne_nil ht
    _ = lastResponse c.commands s := (lastResponse_of_next ht).symm
    _ = c.returns s.mem s.acc.value? := lastResponse_commands c hm hr

end Sys2Proof.Machine

/-! # What a command reads, and where it is stuck

A command without a buffer takes its bytes from its operand field (`commandRun_of_not_isBuffer`); the reads of the two buffer
commands are the run's, first cell first. -/

namespace Sys2Proof.Machine

/-- Settles O22: a command that completes has only responded. -/
theorem hardwareNeverWritesMemory : Obligations.HardwareNeverWritesMemory := by
  intro i s t h
  obtain ⟨r, rs, rfl⟩ := exec_next_shape h
  exact ⟨fun _ => rfl, rfl⟩

/-! ### The reads of a command that completes (rules R22, R27) -/

/-- The checksum a command starts from is no matter of the memory. -/
theorem startCrc_congr {s s' : State} (h : s'.acc = s.acc) (i : Instr) : startCrc i s' = startCrc i s := by
  have hc (sel : SeedSel) : crcIn sel s' = crcIn sel s := by simp only [crcIn, h]
  cases i with
  | init sel seed => cases sel <;> rfl
  | _ => exact hc _

/-- A command without a buffer has its bytes in its operand field: its run reads nothing and is the same in every state. -/
theorem commandRun_of_not_isBuffer {i : Instr} (h : i.isBuffer = false) :
    ∃ bytes, ∀ s, commandRun i s = some ⟨bytes, [], .complete⟩ := by
  cases i with
  | foldBytes | foldText => cases h
  | _ => exact ⟨_, fun _ => rfl⟩

/-- FOLD_BYTES reads its `len` cells, none with a null pointer. -/
theorem exec_foldBytes_reads {sel : SeedSel} {ptr : Addr} {len : Len} {s t : State}
    (h : exec (.foldBytes sel ptr len) s = .next t) :
    t.reads = if ptr = 0#32 then [] else (List.range len.toNat).map (ptr.toNat + ·) := by
  obtain ⟨crc, -, hcrc, -⟩ := exec_eq_next_iff.1 h
  rcases execFoldBytes_cases hcrc ptr len with ⟨hp, e⟩ | ⟨-, -, e⟩ | ⟨hp, -, M, -, e⟩ | ⟨-, -, n, -, -, -, e⟩ <;>
    cases h.symm.trans e
  · exact (if_pos hp).symm
  · exact (if_neg hp).symm

/-- FOLD_TEXT reads up to the first zero byte and with it, nothing with a null pointer. -/
theorem exec_foldText_reads {sel : SeedSel} {ptr : Addr} {s t : State} (h : exec (.foldText sel ptr) s = .next t) :
    (ptr = 0#32 → t.reads = []) ∧
    (ptr ≠ 0#32 → ∃ n, s.memRead n (ptr.toNat + n) = some 0#8 ∧
      (∀ k < n, s.memRead k (ptr.toNat + k) ≠ some 0#8) ∧ t.reads = (List.range (n + 1)).map (ptr.toNat + ·)) := by
  obtain ⟨crc, -, hcrc, -⟩ := exec_eq_next_iff.1 h
  rcases execFoldText_cases hcrc ptr with ⟨hp, e⟩ | ⟨hp, n, M, -, hM, h0, e⟩ | ⟨-, -, e⟩ | ⟨-, n, -, -, -, e⟩ <;>
    cases h.symm.trans e
  · exact ⟨fun _ => rfl, (absurd hp ·)⟩
  · refine ⟨(absurd · hp), fun _ => ⟨n, h0, fun k hk => ?_, rfl⟩⟩
    obtain ⟨hb, hz⟩ := hM k hk
    simp [hb, hz]

/-- Settles O25: the reads of the two buffer commands, each in its cases. -/
theorem readsAscendEachOnce : Obligations.ReadsAscendEachOnce :=
  ⟨fun _ _ _ _ _ => exec_foldBytes_reads, fun _ _ _ _ => exec_foldText_reads⟩

/-- Settles O24: without a buffer neither the starting checksum nor the run looks at memory; with one the first cell is read. -/
theorem onlyBufferCommandsReachMemory : Obligations.OnlyBufferCommandsReachMemory := by
  refine ⟨fun i s t hi h => ?_, fun sel ptr len s t hp hl h => ?_, fun sel ptr s t hp h => ?_⟩
  · obtain ⟨bytes, hrun⟩ := commandRun_of_not_isBuffer hi
    obtain ⟨crc, r, hcrc, hr, -, rfl⟩ := exec_eq_next_iff.1 h
    cases (hrun s).symm.trans hr
    exact ⟨rfl, fun m race => exec_eq_next_iff.2 ⟨crc, _, (startCrc_congr rfl i).trans hcrc, hrun _, rfl, rfl⟩⟩
  · have hn : len.toNat ≠ 0 := fun h0 => hl (BitVec.eq_of_toNat_eq h0)
    simp [exec_foldBytes_reads h, hp, hn]
  · obtain ⟨n, -, -, hreads⟩ := (exec_foldText_reads h).2 hp
    simp [hreads]

/-! ### Stuck commands (rule R30) -/

/-- A checksum to start from is `ACC`'s value or the default seed. -/
theorem crcReady_iff {sel : SeedSel} {s : State} : CrcReady sel s ↔ ∃ crc, crcIn sel s = some crc := by
  cases sel with
  | given => simp [CrcReady, Acc.value?_eq_some]
  | omitted => simp [CrcReady]

theorem finishCommand_eq_fault_iff {s : State} {crc : Word} {o : Option Run} {made : List Nat} {a : Nat} :
    finishCommand s crc o = .fault (.stuckRead made a) ↔ ∃ r, o = some r ∧ r.ending = .stuck a ∧ r.reads = made := by
  cases o with
  | none => simp [finishCommand]
  | some r =>
    simp only [finishCommand]
    rcases finishRun_cases s crc r with ⟨h, e⟩ | ⟨b, h, e⟩ | ⟨h, e⟩ <;> simp [e, h, and_comm]

/-- A command is stuck exactly when it has a checksum to start from and its run is stuck. -/
theorem exec_eq_fault_iff {i : Instr} {s : State} {made : List Nat} {a : Nat} :
    exec i s = .fault (.stuckRead made a) ↔
      ∃ crc r, startCrc i s = some crc ∧ commandRun i s = some r ∧ r.ending = .stuck a ∧ r.reads = made := by
  cases h : startCrc i s with
  | none => simp [exec_of_startCrc_none h]
  | some crc => simp [exec_of_startCrc_some h, finishCommand_eq_fault_iff]

/-- A command without a buffer is never stuck. -/
theorem isBuffer_of_exec_fault {i : Instr} {s : State} {made : List Nat} {a : Nat}
    (h : exec i s = .fault (.stuckRead made a)) : i.isBuffer = true := by
  by_contra hi
  obtain ⟨bytes, hrun⟩ := commandRun_of_not_isBuffer (Bool.not_eq_true _ ▸ hi)
  obtain ⟨crc, r, -, hr, hstuck, -⟩ := exec_eq_fault_iff.1 h
  cases (hrun s).symm.trans hr
  cases hstuck

/-- FOLD_BYTES is stuck exactly at the first unreadable cell of a buffer below 2^32. -/
theorem exec_foldBytes_eq_fault_iff {sel : SeedSel} {ptr : Addr} {len : Len} {s : State} {made : List Nat} {a : Nat} :
    exec (.foldBytes sel ptr len) s = .fault (.stuckRead made a) ↔
      CrcReady sel s ∧ ptr ≠ 0#32 ∧ ptr.toNat + len.toNat ≤ 4294967296 ∧ ∃ n < len.toNat, a = ptr.toNat + n ∧
        made = (List.range n).map (ptr.toNat + ·) ∧ s.memRead n a = none ∧
        ∀ k < n, (s.memRead k (ptr.toNat + k)).isSome := by
  constructor
  · intro h
    obtain ⟨crc, -, hcrc, -⟩ := exec_eq_fault_iff.1 h
    rcases execFoldBytes_cases hcrc ptr len with ⟨-, e⟩ | ⟨-, -, e⟩ | ⟨-, -, M, -, e⟩ | ⟨hp, hw, n, hn, hr, hs, e⟩ <;>
      cases h.symm.trans e
    exact ⟨crcReady_iff.2 ⟨crc, hcrc⟩, hp, hw, n, hn, rfl, rfl, hs, hr⟩
  · rintro ⟨hc, hp, hw, n, hn, rfl, rfl, hs, hr⟩
    obtain ⟨crc, hcrc⟩ := crcReady_iff.1 hc
    obtain ⟨hend, hreads⟩ := readCells_stuck s ptr n len.toNat 0 hn (by simpa [ea] using hr) (by simpa [ea] using hs)
    refine exec_eq_fault_iff.2 ⟨crc, _, hcrc, (if_neg hp).trans (if_neg hw.not_gt), ?_, ?_⟩
    · simpa [ea] using hend
    · rw [hreads, addrsFrom_start]

/-- FOLD_TEXT is stuck exactly at an unreadable cell below 2^32 that comes before any zero byte. -/
theorem exec_foldText_eq_fault_iff {sel : SeedSel} {ptr : Addr} {s : State} {made : List Nat} {a : Nat} :
    exec (.foldText sel ptr) s = .fault (.stuckRead made a) ↔
      CrcReady sel s ∧ ptr ≠ 0#32 ∧ ∃ n, a < 4294967296 ∧ a = ptr.toNat + n ∧
        made = (List.range n).map (ptr.toNat + ·) ∧ s.memRead n a = none ∧
        ∀ k < n, ∃ b, s.memRead k (ptr.toNat + k) = some b ∧ b ≠ 0#8 := by
  constructor
  · intro h
    obtain ⟨crc, -, hcrc, -⟩ := exec_eq_fault_iff.1 h
    rcases execFoldText_cases hcrc ptr with ⟨-, e⟩ | ⟨-, n, M, -, -, -, e⟩ | ⟨-, -, e⟩ | ⟨hp, n, hn, hr, hs, e⟩ <;>
      cases h.symm.trans e
    exact ⟨crcReady_iff.2 ⟨crc, hcrc⟩, hp, n, hn, rfl, rfl, hs, hr⟩
  · rintro ⟨hc, hp, n, hn, rfl, rfl, hs, hr⟩
    obtain ⟨crc, hcrc⟩ := crcReady_iff.1 hc
    have hfuel : n < Config.addrLimit - ptr.toNat := by simp only [Config.addrLimit]; omega
    obtain ⟨hend, hreads⟩ := readText_stuck s ptr n _ 0 hfuel (by simpa [ea] using hr) (by simpa [ea] using hs)
    refine exec_eq_fault_iff.2 ⟨crc, _, hcrc, if_neg hp, ?_, ?_⟩
    · simpa [ea] using hend
    · rw [hreads, addrsFrom_start]

/-- Settles O26: only the buffer commands are ever stuck, each where its reads first have no result. -/
theorem stuckExactlyAtAnUnreadableAddress : Obligations.StuckExactlyAtAnUnreadableAddress := by
  intro i s made a
  constructor
  · intro h
    have hi := isBuffer_of_exec_fault h
    cases i with
    | foldBytes sel ptr len =>
      obtain ⟨hc, hp, hw, n, hn, rfl, hm, hs, hr⟩ := exec_foldBytes_eq_fault_iff.1 h
      exact ⟨sel, ptr, n, hc, hp, rfl, hm, hs, by omega, .inl ⟨len, rfl, hw, hn, hr⟩⟩
    | foldText sel ptr =>
      obtain ⟨hc, hp, n, ha, hn, hm, hs, hr⟩ := exec_foldText_eq_fault_iff.1 h
      exact ⟨sel, ptr, n, hc, hp, hn, hm, hs, ha, .inr ⟨rfl, hr⟩⟩
    | _ => cases hi
  · rintro ⟨sel, ptr, n, hc, hp, hn, hm, hs, ha, ⟨len, rfl, hw, hl, hr⟩ | ⟨rfl, hr⟩⟩
    · exact exec_foldBytes_eq_fault_iff.2 ⟨hc, hp, hw, n, hl, hn, hm, hs, hr⟩
    · exact exec_foldText_eq_fault_iff.2 ⟨hc, hp, n, ha, hn, hm, hs, hr⟩

end Sys2Proof.Machine

/-! # The command word: reserved words, used bits, and the round trip

A word is reserved by its `RSV` and `OP` alone (`decode_eq_error_iff`). Decoding looks at a word's used bits only
(`decode_and_usedBits`), encoding gives just these back (`encode_of_decode_ok`), and an encoded command decodes to itself
(`decode_encode`). -/

namespace Sys2Proof.Machine

/-- Settles O21: a command that completes has only responded, and a response writes its value to `ACC`. -/
theorem responseIsTheNewAccumulator : Obligations.ResponseIsTheNewAccumulator := by
  intro i s t h
  obtain ⟨r, rs, rfl⟩ := exec_next_shape h
  exact ⟨r, respond_acc .., respond_rsp ..⟩

/-! ### Reserved words (rules R43, R47) -/

/-- An `OP` is reserved or one of the seven of rule R43's table. -/
theorem op_cases : ∀ op : BitVec 4,
    7 ≤ op.toNat ∨ op = 0#4 ∨ op = 1#4 ∨ op = 2#4 ∨ op = 3#4 ∨ op = 4#4 ∨ op = 5#4 ∨ op = 6#4 := by
  decide

theorem decodeOp_of_reserved {op : BitVec 4} (h : 7 ≤ op.toNat) (sel : SeedSel) (operand : BitVec 64) :
    decodeOp sel op operand = .error (.opReserved op) := by
  unfold decodeOp
  split
  case h_8 => rfl
  all_goals omega

theorem decodeOp_eq_error_iff {sel : SeedSel} {op : BitVec 4} {operand : BitVec 64} :
    (∃ e, decodeOp sel op operand = .error e) ↔ 7 ≤ op.toNat := by
  rcases op_cases op with h | rfl | rfl | rfl | rfl | rfl | rfl | rfl
  · simp [decodeOp_of_reserved h, h]
  all_goals simp [decodeOp]

theorem decode_eq_error_iff {w : CmdWord} : (∃ e, decode w = .error e) ↔ fieldRsv w ≠ 0#3 ∨ 7 ≤ (fieldOp w).toNat := by
  unfold decode
  split_ifs with h
  · simp [decodeOp_eq_error_iff, h]
  · simp [h]

/-- Settles O10: a word is reserved by its fields, and a reserved word is refused where it is taken from CMD. -/
theorem reservedWordsAreRefused : Obligations.ReservedWordsAreRefused := by
  intro w
  refine ⟨decode_eq_error_iff, fun h s => ?_⟩
  obtain ⟨e, he⟩ := decode_eq_error_iff.2 h
  exact ⟨e, performWord_error he s⟩

/-! ### Masks on command words -/

/-- A mask of ones keeps every bit, also where it is written as a numeral. -/
theorem and_of_eq_allOnes {n : Nat} {m : BitVec n} (h : m = BitVec.allOnes n) (x : BitVec n) : x &&& m = x :=
  h ▸ BitVec.and_allOnes

theorem cmdWord_and (s s' : BitVec 1) (rsv rsv' : BitVec 3) (op op' : BitVec 4) (x x' : BitVec 64) :
    cmdWord s rsv op x &&& cmdWord s' rsv' op' x' = cmdWord (s &&& s') (rsv &&& rsv') (op &&& op') (x &&& x') := by
  unfold cmdWord
  rw [BitVec.and_append, BitVec.and_append, BitVec.and_append]

theorem usedBits_eq_cmdWord (w : CmdWord) : usedBits w = cmdWord 1#1 7#3 15#4 (operandMask (fieldS w) (fieldOp w)) := rfl

/-- Masked with the used bits of `v`, a word keeps its `S`, `RSV` and `OP`, and of its operand what `v` looks at. -/
theorem and_usedBits (w v : CmdWord) : w &&& usedBits v =
    cmdWord (fieldS w) (fieldRsv w) (fieldOp w) (fieldOperand w &&& operandMask (fieldS v) (fieldOp v)) := by
  conv_lhs => rw [← cmdWord_fields w, usedBits_eq_cmdWord, cmdWord_and]
  simp [and_of_eq_allOnes]

/-- The row mask of bits 70:64 covers no ignored bit. -/
theorem usedBits_and_rowMask (w : CmdWord) : usedBits w &&& Laws.MatchesTable.rowMask = Laws.MatchesTable.rowMask := by
  have hm : Laws.MatchesTable.rowMask = cmdWord 0#1 7#3 15#4 0#64 := by decide
  rw [usedBits_eq_cmdWord, hm, cmdWord_and]
  simp

/-! ### Decoding looks at the used bits only (rules R45, R46) -/

theorem decodeOp_and_operandMask (s : BitVec 1) (op : BitVec 4) (x : BitVec 64) :
    decodeOp (seedSelOf s) op (x &&& operandMask s op) = decodeOp (seedSelOf s) op x := by
  rcases op_cases op with h | rfl | rfl | rfl | rfl | rfl | rfl | rfl
  · rw [decodeOp_of_reserved h, decodeOp_of_reserved h]
  · rcases BitVec.eq_zero_or_eq_one s with rfl | rfl
    · simp [decodeOp, operandMask, initSeed, seedSelOf, BitVec.extractLsb'_and, and_of_eq_allOnes]
    · rfl
  all_goals simp [decodeOp, operandMask, BitVec.extractLsb'_and, and_of_eq_allOnes]

theorem decode_and_usedBits {w v : CmdWord} (hs : fieldS w = fieldS v) (ho : fieldOp w = fieldOp v) :
    decode (w &&& usedBits v) = decode w := by
  simp [and_usedBits, decode, ← hs, ← ho, decodeOp_and_operandMask]

/-- Words that agree on the bits one of them looks at are the same command, or reserved for the same reason. -/
theorem decode_congr {w w' : CmdWord} (h : w &&& usedBits w = w' &&& usedBits w) : decode w = decode w' := by
  have hs : fieldS w = fieldS w' := by simpa [and_usedBits] using congrArg fieldS h
  have ho : fieldOp w = fieldOp w' := by simpa [and_usedBits] using congrArg fieldOp h
  calc decode w = decode (w &&& usedBits w) := (decode_and_usedBits rfl rfl).symm
    _ = decode (w' &&& usedBits w) := congrArg decode h
    _ = decode w' := decode_and_usedBits hs.symm ho.symm

/-! ### The round trip (rules R45, R46, R55) -/

@[simp] theorem bit_seedSelOf : ∀ s : BitVec 1, (seedSelOf s).bit = s := by
  decide

/-- The low bits of an operand, written back, are what the mask of as many ones keeps of it. -/
theorem setWidth_extractLsb'_zero (x : BitVec 64) (n : Nat) :
    (x.extractLsb' 0 n).setWidth 64 = x &&& (BitVec.allOnes n).setWidth 64 := by
  ext i hi
  simp [Bool.and_comm, BitVec.getLsbD_eq_getElem hi]

/-- The two halves of an operand, written back, are the operand. -/
theorem extractLsb'_append_halves (x : BitVec 64) : x.extractLsb' 32 32 ++ x.extractLsb' 0 32 = x :=
  (BitVec.extractLsb'_append_extractLsb'_eq_extractLsb' rfl).trans BitVec.extractLsb'_eq_self

theorem low_half_append (hi lo : BitVec 32) : BitVec.extractLsb' (n := 64) 0 32 (hi ++ lo) = lo :=
  (BitVec.extractLsb'_append_eq_of_add_le (by decide)).trans BitVec.extractLsb'_eq_self

theorem high_half_append (hi lo : BitVec 32) : BitVec.extractLsb' (n := 64) 32 32 (hi ++ lo) = hi :=
  (BitVec.extractLsb'_append_eq_of_le (by decide)).trans BitVec.extractLsb'_eq_self

theorem encode_of_decodeOp_ok {s : BitVec 1} {op : BitVec 4} {x : BitVec 64} {i : Instr}
    (h : decodeOp (seedSelOf s) op x = .ok i) : encode i = cmdWord s 0#3 op (x &&& operandMask s op) := by
  rcases op_cases op with ho | rfl | rfl | rfl | rfl | rfl | rfl | rfl
  · simp [decodeOp_of_reserved ho] at h
  · cases h
    rcases BitVec.eq_zero_or_eq_one s with rfl | rfl
    · simp [encode, operandMask, initSeed, seedSelOf, setWidth_extractLsb'_zero]
    · simp [encode, operandMask, seedSelOf]
  all_goals
    cases h
    simp [encode, operandMask, setWidth_extractLsb'_zero, extractLsb'_append_halves, and_of_eq_allOnes]

/-- A command's word is the word it was decoded from, without the bits it does not look at. -/
theorem encode_of_decode_ok {w : CmdWord} {i : Instr} (h : decode w = .ok i) : encode i = w &&& usedBits w := by
  unfold decode at h
  split_ifs at h with hr
  rw [encode_of_decodeOp_ok h, and_usedBits, hr]

theorem decode_encode {i : Instr} (h : i.wellFormed = true) : decode (encode i) = .ok i := by
  cases i with
  | init sel seed =>
    cases sel with
    | given => simp [encode, decode, decodeOp, initSeed, seedSelOf, BitVec.extractLsb'_setWidth_of_le]
    | omitted => cases eq_of_beq h; rfl
  | foldBytes sel ptr len => simp [encode, decode, decodeOp, low_half_append, high_half_append]
  | _ => simp [encode, decode, decodeOp, BitVec.extractLsb'_setWidth_of_le]

/-- The unused seed of an INIT with S = 1 is not in its word: every word of a command is a well-formed command's. -/
theorem exists_wellFormed_encode_eq (i : Instr) : ∃ j : Instr, j.wellFormed = true ∧ encode j = encode i := by
  cases i with
  | init sel seed =>
    cases sel with
    | given => exact ⟨.init .given seed, rfl, rfl⟩
    | omitted => exact ⟨.init .omitted 0#16, rfl, rfl⟩
  | _ => exact ⟨_, rfl, rfl⟩

/-- An encoder writes the ignored bits as 0. -/
theorem encode_and_usedBits (i : Instr) : encode i &&& usedBits (encode i) = encode i := by
  obtain ⟨j, hj, e⟩ := exists_wellFormed_encode_eq i
  rw [← e]
  exact (encode_of_decode_ok (decode_encode hj)).symm

/-- Settles O9: decoding looks at the used bits only, encoding writes no others, and the row mask covers used bits only. -/
theorem ignoredOperandBitsDoNotMatter : Obligations.IgnoredOperandBitsDoNotMatter := by
  refine ⟨fun w w' h => ⟨decode_congr h, fun s => ?_⟩, encode_and_usedBits, fun w i h => ?_⟩
  · simp only [performWord, decode_congr h]
  · change w &&& Laws.MatchesTable.rowMask = encode i &&& Laws.MatchesTable.rowMask
    rw [encode_of_decode_ok h, BitVec.and_assoc, usedBits_and_rowMask]

end Sys2Proof.Machine

/-! # INIT and FOLD_BYTE

The kernel keeps its byte: after rule R60's nibble fold, which undoes itself, the high byte of the result is `d ^^^ (d >>> 5)`, from
which `d` comes back by the same map (`update_injective`). INIT and FOLD_BYTE are `exec` by their starting checksum; their words come
from `cmdWord_setWidth`. -/

namespace Sys2Proof.Machine

/-! ### The kernel on one byte (rules R60, R64 (d), (e)) -/

/-- A shift by at least half the width, XORed into what was shifted, undoes itself. -/
theorem xor_shiftLeft_involutive {n k : Nat} (h : n ≤ k + k) : Function.Involutive fun x : BitVec n => x ^^^ x <<< k := by
  intro x
  have hz : x <<< k <<< k = 0#n := by rw [← BitVec.shiftLeft_add, BitVec.shiftLeft_eq_zero h]
  simp [BitVec.shiftLeft_xor_distrib, hz]

/-- The same for a shift to the right. -/
theorem xor_ushiftRight_involutive {n k : Nat} (h : n ≤ k + k) : Function.Involutive fun x : BitVec n => x ^^^ x >>> k := by
  intro x
  have hz : x >>> k >>> k = 0#n := by rw [← BitVec.shiftRight_add, BitVec.ushiftRight_eq_zero h]
  simp [BitVec.ushiftRight_xor_distrib, hz]

theorem nibbleFold_injective : Function.Injective nibbleFold :=
  (xor_shiftLeft_involutive (by decide)).injective

/-- Step 3 of rule R60 leaves its byte in the high half, XORed with itself five places down. -/
theorem hi8_spread (hi d : Byte) : hi8 (spread hi d) = d ^^^ d >>> 5 := by
  have h₁ : BitVec.extractLsb' (n := 16) 8 8 (d ++ hi) = d :=
    (BitVec.extractLsb'_append_eq_of_le (by decide)).trans BitVec.extractLsb'_eq_self
  have h₂ : ((d >>> 4).setWidth 16).extractLsb' 8 8 = 0#8 := by
    ext i h
    simpa using fun _ => BitVec.getLsbD_of_ge d (4 + (8 + i)) (by omega)
  have h₃ : (d.setWidth 16 <<< 3).extractLsb' 8 8 = d >>> 5 := by
    ext i h
    have hj : 8 + i - 3 = 5 + i := by omega
    have hb : 8 + i < 16 ∧ ¬ 8 + i < 3 ∧ 5 + i < 16 := by omega
    simp [hj, hb]
  rw [hi8, spread, BitVec.extractLsb'_xor, BitVec.extractLsb'_xor, h₁, h₂, h₃, BitVec.xor_zero]

theorem spread_injective (hi : Byte) : Function.Injective (spread hi) := fun d d' h =>
  (xor_ushiftRight_involutive (k := 5) (by decide)).injective <| by
    simpa only [hi8_spread] using congrArg hi8 h

/-- Rule R64 (e): different bytes fold to different checksums. -/
theorem update_injective (crc : Word) : Function.Injective (update crc) := fun _ _ h =>
  (BitVec.xor_left_inj (lo8 crc)).1 (nibbleFold_injective (spread_injective _ h))

/-- Rule R64 (d): a checksum's own low byte cancels it, and the high byte moves down. -/
theorem update_lo8 (crc : Word) : update crc (lo8 crc) = crc >>> 8 := by
  have hn : nibbleFold 0#8 = 0#8 := rfl
  have hs : spread (hi8 crc) 0#8 = 0#8 ++ hi8 crc := by simp [spread]
  rw [update, BitVec.xor_self, hn, hs]
  exact (BitVec.ushiftRight_eq_extractLsb'_of_lt (by decide)).symm

/-- A zero checksum stays zero under a zero byte only. -/
theorem update_zero_eq_zero_iff {b : Byte} : update 0#16 b = 0#16 ↔ b = 0#8 :=
  (update_injective 0#16).eq_iff' (update_lo8 0#16)

/-! ### The commands by their starting checksum (rules R70, R71) -/

/-- INIT responds with its seed in every state: what it writes is not looked up in the state. -/
theorem exec_of_not_isFold {i : Instr} (h : i.isFold = false) : ∃ seed, ∀ s, exec i s = .next (s.respond seed []) := by
  cases i with
  | init sel seed =>
    cases sel with
    | given => exact ⟨seed, fun _ => rfl⟩
    | omitted => exact ⟨Config.defaultSeed, fun _ => rfl⟩
  | _ => cases h

/-- The checksum a claim names with `StartsFrom` is the one `exec` finds (rule R44). -/
theorem crcIn_eq_some_iff {sel : SeedSel} {s : State} {crc : Word} : crcIn sel s = some crc ↔ StartsFrom sel s crc := by
  cases sel with
  | given => exact Acc.value?_eq_some
  | omitted => simp [StartsFrom, eq_comm]

theorem exec_foldByte_of_startsFrom {sel : SeedSel} {s : State} {crc : Word} (h : StartsFrom sel s crc) (value : Byte) :
    exec (.foldByte sel value) s = .next (s.respond (update crc value) []) :=
  exec_of_startCrc_some (i := .foldByte sel value) (crcIn_eq_some_iff.2 h)

/-! ### The words -/

/-- A command word whose operand field holds a shorter operand: zeros stand between the leading byte and the operand. -/
theorem cmdWord_setWidth {m n : Nat} (h : m + n = 64) (s : BitVec 1) (rsv : BitVec 3) (op : BitVec 4) (x : BitVec n) :
    cmdWord s rsv op (x.setWidth 64) = (s ++ rsv ++ op ++ 0#m ++ x).cast (by omega) := by
  obtain rfl : m = 64 - n := by omega
  rw [cmdWord, BitVec.setWidth_eq_append (by omega), BitVec.append_assoc (x₃ := x)]
  exact (BitVec.cast_append_right (v' := 64) (by omega) _ _).symm

/-- Settles O14: `exec` by `crc_in`, the kernel's laws for one byte, and the word with its 56 zero bits. -/
theorem foldByteFoldsOneByte : Obligations.FoldByteFoldsOneByte := by
  intro sel value s
  refine ⟨fun crc h => ⟨exec_foldByte_of_startsFrom h value, fun _ => (update_injective crc).ne, ?_, ?_, ?_⟩, ?_,
    cmdWord_setWidth (m := 56) rfl .., cmdWord_setWidth (m := 56) rfl ..⟩
  · rintro rfl
    exact update_lo8 crc
  · rintro rfl
    exact update_zero_eq_zero_iff
  · rintro rfl rfl
    decide
  · rintro rfl h
    exact exec_of_startCrc_none (crcIn_eq_none_iff.2 ⟨h, rfl⟩)

/-- Settles O13: INIT responds with its seed alone, so the second of two INIT does what it would have done without the first. -/
theorem initCreatesTheChecksum : Obligations.InitCreatesTheChecksum := by
  refine ⟨fun s => ⟨fun seed => rfl, fun unused => ⟨rfl, rfl⟩, fun i j t hi hj h => ?_⟩,
    fun seed => cmdWord_setWidth (m := 48) rfl .., rfl⟩
  obtain ⟨a, ha⟩ := exec_of_not_isFold hi
  obtain ⟨b, hb⟩ := exec_of_not_isFold hj
  rw [execAll_cons_of_next (ha s), execAll_cons_of_next (hb _)] at h
  calc exec j s = .next (s.respond b []) := hb s
    _ = .next t := h

end Sys2Proof.Machine

/-! # FOLD_BYTES and FOLD_TEXT

Each case of rules R80 and R81 fixes the run of the command (`readCells_complete`, `readText_complete`, `readText_unterminated`), and
`exec` follows from `crc_in` and the run. The stuck cases are those of `exec_foldBytes_eq_fault_iff` and
`exec_foldText_eq_fault_iff`. -/

namespace Sys2Proof.Machine

/-! ### The run of a buffer command (rules R29, R80, R81) -/

theorem commandRun_foldBytes {ptr : Addr} {len : Len} (hp : ptr ≠ 0#32) (hw : ptr.toNat + len.toNat ≤ 4294967296)
    (sel : SeedSel) (s : State) : commandRun (.foldBytes sel ptr len) s = some (readCells s ptr len.toNat 0) :=
  (if_neg hp).trans (if_neg hw.not_gt)

theorem commandRun_foldText {ptr : Addr} (hp : ptr ≠ 0#32) (sel : SeedSel) (s : State) :
    commandRun (.foldText sel ptr) s = some (readText s ptr (Config.addrLimit - ptr.toNat) 0) :=
  if_neg hp

/-! ### `exec` in each case with a `crc_in` -/

section
variable {sel : SeedSel} {s : State} {crc : Word}

theorem crcReady_of_startsFrom (h : StartsFrom sel s crc) : CrcReady sel s :=
  crcReady_iff.2 ⟨crc, crcIn_eq_some_iff.2 h⟩

theorem exec_foldBytes_of_startsFrom (h : StartsFrom sel s crc) (ptr : Addr) (len : Len) :
    exec (.foldBytes sel ptr len) s = finishCommand s crc (commandRun (.foldBytes sel ptr len) s) :=
  exec_of_startCrc_some (i := .foldBytes sel ptr len) (crcIn_eq_some_iff.2 h)

theorem exec_foldText_of_startsFrom (h : StartsFrom sel s crc) (ptr : Addr) :
    exec (.foldText sel ptr) s = finishCommand s crc (commandRun (.foldText sel ptr) s) :=
  exec_of_startCrc_some (i := .foldText sel ptr) (crcIn_eq_some_iff.2 h)

/-- Rules R29, R80 (f): a buffer past the top of the address space has no run. -/
theorem exec_foldBytes_of_wraps (h : StartsFrom sel s crc) {ptr : Addr} {len : Len} (hp : ptr ≠ 0#32)
    (hw : 4294967296 < ptr.toNat + len.toNat) : exec (.foldBytes sel ptr len) s = .refused .bufferWraps := by
  have hrun : commandRun (.foldBytes sel ptr len) s = none := (if_neg hp).trans (if_pos hw)
  rw [exec_foldBytes_of_startsFrom h, hrun, finishCommand]

/-- Rule R80: a readable buffer is folded whole. -/
theorem exec_foldBytes_of_readable (h : StartsFrom sel s crc) {ptr : Addr} {len : Len} (hp : ptr ≠ 0#32)
    (hw : ptr.toNat + len.toNat ≤ 4294967296) {M : Nat → Byte}
    (hM : ∀ k < len.toNat, s.memRead k (ptr.toNat + k) = some (M k)) :
    exec (.foldBytes sel ptr len) s =
      .next (s.respond (foldList crc ((List.range len.toNat).map M)) ((List.range len.toNat).map (ptr.toNat + ·))) := by
  have hrun := readCells_complete s ptr M len.toNat 0 (by simpa [ea] using hM)
  rw [exec_foldBytes_of_startsFrom h, commandRun_foldBytes hp hw, hrun]
  simp [finishCommand, finishRun, addrsFrom_start]

/-- Rule R80 (a), (b): no byte, no read, and `crc_in` is the answer. An empty buffer never passes the top. -/
theorem exec_foldBytes_of_null_or_empty (h : StartsFrom sel s crc) {ptr : Addr} {len : Len} (h0 : ptr = 0#32 ∨ len = 0#32) :
    exec (.foldBytes sel ptr len) s = .next (s.respond crc []) := by
  by_cases hp : ptr = 0#32
  · have hrun : commandRun (.foldBytes sel ptr len) s = some ⟨[], [], .complete⟩ := if_pos hp
    rw [exec_foldBytes_of_startsFrom h, hrun]
    rfl
  · obtain rfl := h0.resolve_left hp
    exact exec_foldBytes_of_readable h (len := 0#32) hp ptr.isLt.le (M := fun _ => 0#8) (by simp)

/-- Rule R81: a null pointer is no text. -/
theorem exec_foldText_null (h : StartsFrom sel s crc) : exec (.foldText sel 0#32) s = .next (s.respond crc []) :=
  exec_foldText_of_startsFrom h 0#32

/-- Rule R81: a text is folded without its terminator, which is read. -/
theorem exec_foldText_of_terminated (h : StartsFrom sel s crc) {ptr : Addr} (hp : ptr ≠ 0#32) {n : Nat} {M : Nat → Byte}
    (hn : ptr.toNat + n < 4294967296) (hM : ∀ k < n, s.memRead k (ptr.toNat + k) = some (M k) ∧ M k ≠ 0#8)
    (h0 : s.memRead n (ptr.toNat + n) = some 0#8) :
    exec (.foldText sel ptr) s =
      .next (s.respond (foldList crc ((List.range n).map M)) ((List.range (n + 1)).map (ptr.toNat + ·))) := by
  have hfuel : n < Config.addrLimit - ptr.toNat := by simp only [Config.addrLimit]; omega
  have hrun := readText_complete s ptr M n _ 0 hfuel (by simpa [ea] using hM) (by simpa [ea] using h0)
  rw [exec_foldText_of_startsFrom h, commandRun_foldText hp, hrun]
  simp [finishCommand, finishRun, addrsFrom_start]

/-- Rule R81 (d): a text without terminator below the top of the address space has no length. -/
theorem exec_foldText_of_unterminated (h : StartsFrom sel s crc) {ptr : Addr} (hp : ptr ≠ 0#32)
    (hu : ∀ k, ptr.toNat + k < 4294967296 → ∃ b, s.memRead k (ptr.toNat + k) = some b ∧ b ≠ 0#8) :
    exec (.foldText sel ptr) s = .refused .textUnterminated := by
  have hend := readText_unterminated s ptr (Config.addrLimit - ptr.toNat) 0 fun k hk => by
    simpa [ea] using hu k (by simp only [Config.addrLimit] at hk; omega)
  rw [exec_foldText_of_startsFrom h, commandRun_foldText hp, finishCommand, finishRun, hend]

end

/-! ### The worked example and the words -/

/-- The check value of the nine digits "123456789" from the default seed. -/
theorem foldList_nine_digits {M : Nat → Byte} (hM : ∀ k < 9, M k = BitVec.ofNat 8 (0x31 + k)) :
    foldList 0xFFFF#16 ((List.range 9).map M) = 0x6F91#16 := by
  have hmap : (List.range 9).map M = (List.range 9).map fun k => BitVec.ofNat 8 (0x31 + k) :=
    List.map_congr_left fun k hk => hM k (List.mem_range.1 hk)
  rw [hmap]
  decide

/-- A command word whose operand field is filled by two halves. -/
theorem cmdWord_append (s : BitVec 1) (rsv : BitVec 3) (op : BitVec 4) (hi lo : BitVec 32) :
    cmdWord s rsv op (hi ++ lo) = s ++ rsv ++ op ++ hi ++ lo := by
  rw [cmdWord, BitVec.append_assoc (x₂ := hi), BitVec.cast_eq]

/-- Settles O18: the null, empty and readable buffers have a complete run, a buffer past the top has none, and the first unreadable
cell is where the command is stuck. -/
theorem foldBytesFoldsTheBuffer : Obligations.FoldBytesFoldsTheBuffer := by
  intro sel ptr len s
  refine ⟨fun crc h => ⟨exec_foldBytes_of_null_or_empty h, exec_foldBytes_of_wraps h, fun hp hw =>
    ⟨fun M hM => ⟨exec_foldBytes_of_readable h hp hw hM, ?_, ?_⟩, fun n hn hr hs => ?_⟩⟩, ?_,
    cmdWord_append .., cmdWord_append ..⟩
  · rintro rfl
    exact (exec_foldByte_of_startsFrom h (M 0)).symm
  · rintro rfl rfl hdigits
    exact foldList_nine_digits hdigits
  · exact exec_foldBytes_eq_fault_iff.2 ⟨crcReady_of_startsFrom h, hp, hw, n, hn, rfl, rfl, hs, hr⟩
  · rintro rfl h
    exact exec_of_startCrc_none (crcIn_eq_none_iff.2 ⟨h, rfl⟩)

/-- Settles O19: a terminated text has a complete run, which is FOLD_BYTES's over its length; without a terminator the run reaches
the top, and an unreadable cell before one is where the command is stuck. -/
theorem foldTextFoldsUpToTheTerminator : Obligations.FoldTextFoldsUpToTheTerminator := by
  intro sel ptr s
  refine ⟨fun crc h => ⟨?_, fun hp => ⟨fun n M hn hM h0 => ⟨exec_foldText_of_terminated h hp hn hM h0, ?_, ?_⟩,
    exec_foldText_of_unterminated h hp, fun n hn hr hs => ?_⟩⟩,
    cmdWord_setWidth (m := 32) rfl .., cmdWord_setWidth (m := 32) rfl ..⟩
  · rintro rfl
    exact exec_foldText_null h
  · have hlen : (BitVec.ofNat 32 n).toNat = n := Nat.mod_eq_of_lt (by omega)
    have hbytes := exec_foldBytes_of_readable h (len := BitVec.ofNat 32 n) hp (by omega) (M := M)
      (by simpa only [hlen] using fun k hk => (hM k hk).1)
    rw [hlen] at hbytes
    exact ⟨_, hbytes, respond_acc .., respond_rsp ..⟩
  · rintro rfl rfl hdigits
    exact foldList_nine_digits hdigits
  · exact exec_foldText_eq_fault_iff.2 ⟨crcReady_of_startsFrom h, hp, n, hn, rfl, rfl, hs, hr⟩

end Sys2Proof.Machine

/-! # FOLD_SCALAR16, FOLD_SCALAR32 and FOLD_SCALAR64

Each is `exec` by `crc_in`: the fold of the scalar's bytes, least significant first. A wider scalar's bytes are its low half's, then
its high half's (`leBytes_add`), so the command is the next narrower one twice (`execAll_pair_of_startsFrom`). -/

namespace Sys2Proof.Machine

/-! ### The bytes of a scalar (rule R24) -/

/-- A byte of a part of a scalar is the scalar's byte at that place. -/
theorem byteOf_extractLsb' {w len m k : Nat} (h : 8 * k + 8 ≤ len) (v : BitVec w) :
    byteOf (v.extractLsb' (8 * m) len) k = byteOf v (m + k) := by
  ext i hi
  have hlt : 8 * k + i < len := by omega
  simp [byteOf, hlt, Nat.mul_add, Nat.add_assoc]

/-- The bytes of a part of a scalar are the scalar's bytes from that place on. -/
theorem leBytes_extractLsb' {w : Nat} (m n : Nat) (v : BitVec w) :
    leBytes n (v.extractLsb' (8 * m) (8 * n)) = (List.range n).map fun k => byteOf v (m + k) :=
  List.map_congr_left fun k hk => by
    have hlt := List.mem_range.1 hk
    exact byteOf_extractLsb' (by omega) v

/-- The low bytes of a scalar are those of a low part, then those of the part above it. -/
theorem leBytes_add {w : Nat} (m n : Nat) (v : BitVec w) :
    leBytes (m + n) v = leBytes m (v.extractLsb' 0 (8 * m)) ++ leBytes n (v.extractLsb' (8 * m) (8 * n)) := by
  have hlow : leBytes m (v.extractLsb' 0 (8 * m)) = leBytes m v := by
    simpa [leBytes] using leBytes_extractLsb' 0 m v
  rw [hlow, leBytes_extractLsb']
  simp [leBytes, List.range_add]

/-! ### Folds of several bytes (rules R66, R67 (b), R64 (d)) -/

/-- Rule R67 (b): a fold can stop after any byte and go on from there. -/
theorem foldList_append (crc : Word) (xs ys : List Byte) : foldList crc (xs ++ ys) = foldList (foldList crc xs) ys := by
  induction xs generalizing crc with
  | nil => rfl
  | cons x xs ih => exact ih (update crc x)

theorem lo8_ushiftRight_eight (crc : Word) : lo8 (crc >>> 8) = hi8 crc := by
  ext i hi
  simp [lo8, hi8]

/-- A checksum folded into itself, low byte first, is 0: each byte cancels the one that is low then. -/
theorem foldList_self (crc : Word) : foldList crc [lo8 crc, hi8 crc] = 0#16 :=
  calc foldList crc [lo8 crc, hi8 crc] = update (update crc (lo8 crc)) (hi8 crc) := rfl
    _ = update (crc >>> 8) (lo8 (crc >>> 8)) := by rw [update_lo8, lo8_ushiftRight_eight]
    _ = crc >>> 8 >>> 8 := update_lo8 _
    _ = 0#16 := by rw [← BitVec.shiftRight_add, BitVec.ushiftRight_eq_zero (Nat.le_refl 16)]

/-! ### `exec` by `crc_in` (rules R90 to R92) -/

section
variable {sel : SeedSel} {s : State} {crc : Word}

theorem exec_foldScalar16_of_startsFrom (h : StartsFrom sel s crc) (v : BitVec 16) :
    exec (.foldScalar16 sel v) s = .next (s.respond (foldList crc (leBytes 2 v)) []) :=
  exec_of_startCrc_some (i := .foldScalar16 sel v) (crcIn_eq_some_iff.2 h)

theorem exec_foldScalar32_of_startsFrom (h : StartsFrom sel s crc) (v : BitVec 32) :
    exec (.foldScalar32 sel v) s = .next (s.respond (foldList crc (leBytes 4 v)) []) :=
  exec_of_startCrc_some (i := .foldScalar32 sel v) (crcIn_eq_some_iff.2 h)

theorem exec_foldScalar64_of_startsFrom (h : StartsFrom sel s crc) (v : BitVec 64) :
    exec (.foldScalar64 sel v) s = .next (s.respond (foldList crc (leBytes 8 v)) []) :=
  exec_of_startCrc_some (i := .foldScalar64 sel v) (crcIn_eq_some_iff.2 h)

/-- A command that folds `xs`, then one with S = 0 that folds `ys` from whatever `ACC` holds, fold `xs ++ ys`. -/
theorem execAll_pair_of_startsFrom {i j : Instr} {xs ys : List Byte}
    (hi : exec i s = .next (s.respond (foldList crc xs) []))
    (hj : ∀ {t : State} {c : Word}, StartsFrom .given t c → exec j t = .next (t.respond (foldList c ys) [])) :
    execAll [i, j] s = .next (s.respond (foldList crc (xs ++ ys)) []) := by
  have hacc : StartsFrom .given (s.respond (foldList crc xs) []) (foldList crc xs) := respond_acc ..
  rw [execAll_cons_of_next hi, execAll_cons_of_next (hj hacc), foldList_append, respond_respond, execAll]

/-- Rule R91: FOLD_SCALAR32 is FOLD_SCALAR16 of the low half, then of the high half. -/
theorem execAll_foldScalar16_halves (h : StartsFrom sel s crc) (v : BitVec 32) :
    execAll [.foldScalar16 sel (v.extractLsb' 0 16), .foldScalar16 .given (v.extractLsb' 16 16)] s =
      exec (.foldScalar32 sel v) s := by
  rw [exec_foldScalar32_of_startsFrom h, leBytes_add 2 2 v]
  exact execAll_pair_of_startsFrom (exec_foldScalar16_of_startsFrom h _) (exec_foldScalar16_of_startsFrom · _)

/-- Rule R92: FOLD_SCALAR64 is FOLD_SCALAR32 of the low half, then of the high half. -/
theorem execAll_foldScalar32_halves (h : StartsFrom sel s crc) (v : BitVec 64) :
    execAll [.foldScalar32 sel (v.extractLsb' 0 32), .foldScalar32 .given (v.extractLsb' 32 32)] s =
      exec (.foldScalar64 sel v) s := by
  rw [exec_foldScalar64_of_startsFrom h, leBytes_add 4 4 v]
  exact execAll_pair_of_startsFrom (exec_foldScalar32_of_startsFrom h _) (exec_foldScalar32_of_startsFrom · _)

end

/-- Settles O15: `exec` by `crc_in`, the residue law for an operand equal to it, and the word with its 48 zero bits. -/
theorem foldScalar16LowByteFirst : Obligations.FoldScalar16LowByteFirst := by
  intro sel v s crc h
  refine ⟨exec_foldScalar16_of_startsFrom h v, ?_, ?_, cmdWord_setWidth (m := 48) rfl .., cmdWord_setWidth (m := 48) rfl ..⟩
  · rintro rfl
    exact foldList_self v
  · rintro rfl
    refine ⟨?_, ?_, ?_⟩ <;> rintro rfl <;> decide

/-- Settles O16: `exec` by `crc_in`, the two halves, and the word with its 32 zero bits. -/
theorem foldScalar32LowestByteFirst : Obligations.FoldScalar32LowestByteFirst := by
  intro sel v s crc h
  refine ⟨exec_foldScalar32_of_startsFrom h v, execAll_foldScalar16_halves h v, ?_,
    cmdWord_setWidth (m := 32) rfl .., cmdWord_setWidth (m := 32) rfl ..⟩
  rintro rfl
  refine ⟨?_, ?_, ?_⟩ <;> rintro rfl <;> decide

/-- Settles O17: `exec` by `crc_in`, the two halves, and the word whose operand field the scalar fills. -/
theorem foldScalar64LowestByteFirst : Obligations.FoldScalar64LowestByteFirst := by
  intro sel v s crc h
  refine ⟨exec_foldScalar64_of_startsFrom h v, execAll_foldScalar32_halves h v, ?_, rfl, rfl⟩
  rintro rfl rfl
  decide

end Sys2Proof.Machine

/-! # Completion (rules R100, R113)

A command without a buffer completes as soon as it has a checksum to start from; a buffer command needs its cells too. That the cells
suffice is `exec_foldBytes_of_readable` and `exec_foldText_of_terminated`; that they are needed is read off the cases of
`execFoldBytes_cases` and `execFoldText_cases`, of which the others are stops. -/

namespace Sys2Proof.Machine

theorem crcReady_iff_exists_startsFrom {sel : SeedSel} {s : State} : CrcReady sel s ↔ ∃ crc, StartsFrom sel s crc := by
  simp only [crcReady_iff, crcIn_eq_some_iff]

/-- A command that completes always answers (rule R41). -/
theorem exec_responds_iff {i : Instr} {s : State} :
    (∃ (t : State) (r : Word), exec i s = .next t ∧ t.rsp = some r) ↔ ∃ t, exec i s = .next t := by
  constructor
  · rintro ⟨t, -, h, -⟩
    exact ⟨t, h⟩
  · rintro ⟨t, h⟩
    obtain ⟨r, -, hr⟩ := responseIsTheNewAccumulator i s t h
    exact ⟨t, r, h, hr⟩

/-- Without a buffer a checksum to start from is all that the domain asks for. -/
theorem wellTyped_iff_of_not_isBuffer {i : Instr} (h : i.isBuffer = false) (s : State) :
    WellTyped i s ↔ ∃ crc, startCrc i s = some crc := by
  cases i with
  | init sel seed => exact iff_of_true trivial (Option.ne_none_iff_exists'.1 (startCrc_init_ne_none sel seed s))
  | foldBytes | foldText => cases h
  | _ => exact crcReady_iff

/-- Without a buffer the run is always complete, so only the checksum can be wanting. -/
theorem exec_completes_iff_of_not_isBuffer {i : Instr} (h : i.isBuffer = false) (s : State) :
    (∃ t, exec i s = .next t) ↔ ∃ crc, startCrc i s = some crc := by
  obtain ⟨bytes, hrun⟩ := commandRun_of_not_isBuffer h
  constructor
  · rintro ⟨t, ht⟩
    obtain ⟨crc, -, hcrc, -⟩ := exec_eq_next_iff.1 ht
    exact ⟨crc, hcrc⟩
  · rintro ⟨crc, hcrc⟩
    exact ⟨_, exec_eq_next_iff.2 ⟨crc, _, hcrc, hrun s, rfl, rfl⟩⟩

/-- FOLD_BYTES completes exactly with a null pointer or a readable buffer below 2^32 (rules R29, R30, R80). -/
theorem exec_foldBytes_completes_iff {sel : SeedSel} {ptr : Addr} {len : Len} {s : State} :
    (∃ t, exec (.foldBytes sel ptr len) s = .next t) ↔
      CrcReady sel s ∧ (ptr = Config.nullAddr ∨ BufferReadable s ptr len.toNat) := by
  constructor
  · rintro ⟨t, h⟩
    obtain ⟨crc, -, hcrc, -⟩ := exec_eq_next_iff.1 h
    refine ⟨crcReady_iff.2 ⟨crc, hcrc⟩, ?_⟩
    rcases execFoldBytes_cases hcrc ptr len with ⟨hp, -⟩ | ⟨-, -, e⟩ | ⟨-, hw, M, hM, -⟩ | ⟨-, -, n, -, -, -, e⟩
    · exact .inl hp
    · cases h.symm.trans e
    · exact .inr ⟨hw, fun k hk => ⟨M k, hM k hk⟩⟩
    · cases h.symm.trans e
  · rintro ⟨hc, hdom⟩
    obtain ⟨crc, hcrc⟩ := crcReady_iff_exists_startsFrom.1 hc
    by_cases hp : ptr = 0#32
    · exact ⟨_, exec_foldBytes_of_null_or_empty hcrc (.inl hp)⟩
    · obtain ⟨hw, hr⟩ := hdom.resolve_left hp
      choose! M hM using hr
      exact ⟨_, exec_foldBytes_of_readable hcrc hp hw hM⟩

/-- FOLD_TEXT completes exactly with a null pointer or a readable, terminated text below 2^32 (rules R29, R30, R81). -/
theorem exec_foldText_completes_iff {sel : SeedSel} {ptr : Addr} {s : State} :
    (∃ t, exec (.foldText sel ptr) s = .next t) ↔
      CrcReady sel s ∧ (ptr = Config.nullAddr ∨ ∃ n, TextReadable s ptr n) := by
  constructor
  · rintro ⟨t, h⟩
    obtain ⟨crc, -, hcrc, -⟩ := exec_eq_next_iff.1 h
    refine ⟨crcReady_iff.2 ⟨crc, hcrc⟩, ?_⟩
    rcases execFoldText_cases hcrc ptr with ⟨hp, -⟩ | ⟨-, n, M, hn, hM, h0, -⟩ | ⟨-, -, e⟩ | ⟨-, n, -, -, -, e⟩
    · exact .inl hp
    · exact .inr ⟨n, hn, fun k hk => ⟨M k, hM k hk⟩, h0⟩
    · cases h.symm.trans e
    · cases h.symm.trans e
  · rintro ⟨hc, hdom⟩
    obtain ⟨crc, hcrc⟩ := crcReady_iff_exists_startsFrom.1 hc
    by_cases hp : ptr = 0#32
    · subst hp
      exact ⟨_, exec_foldText_null hcrc⟩
    · obtain ⟨n, hn, hr, h0⟩ := hdom.resolve_left hp
      choose! M hM using hr
      exact ⟨_, exec_foldText_of_terminated hcrc hp hn hM h0⟩

/-- Settles O20: a command that completes answers, and it completes exactly in its domain, with a buffer and without. -/
theorem commandsCompleteExactlyInTheDomain : Obligations.CommandsCompleteExactlyInTheDomain := by
  intro i s
  refine exec_responds_iff.trans ?_
  cases i with
  | foldBytes => exact exec_foldBytes_completes_iff
  | foldText => exact exec_foldText_completes_iff
  | _ => exact (exec_completes_iff_of_not_isBuffer rfl s).trans (wellTyped_iff_of_not_isBuffer rfl s).symm

end Sys2Proof.Machine

/-! # Reset, and the host's duties

A command abandoned by a reset has made the first reads of its run (`commandReads_of_commandRun`), whatever `ACC` holds. A host that
keeps its duties has a command that completes over the memory as it stands; writes to other cells leave the bytes it reads alone, so
its answer stays (`exec_of_cellsStable`). -/

namespace Sys2Proof.Machine

/-- Settles O41: a reset is one event, and what it leaves is the reset state with the memory as it was. -/
theorem resetLeavesTheResetState : Obligations.ResetLeavesTheResetState :=
  ⟨fun _ _ h => ⟨_, step_event h, afterReset_acc _, afterReset_rsp _, afterReset_reads _, afterReset_mem _⟩, rfl, rfl, rfl⟩

/-! ### The reads of an abandoned command (rules R120, R123) -/

/-- A command that has a run makes the run's reads. -/
theorem commandReads_of_commandRun {i : Instr} {s : State} {r : Run} (h : commandRun i s = some r) :
    commandReads i s = r.reads := by
  cases i with
  | init | foldByte | foldScalar16 | foldScalar32 | foldScalar64 => cases h; rfl
  | foldBytes sel ptr len =>
    simp only [commandRun] at h
    split_ifs at h with hp hw <;> cases h
    · exact if_pos hp
    · exact commandReads_foldBytes hp (Nat.not_lt.1 hw) sel s
  | foldText sel ptr =>
    simp only [commandRun] at h
    split_ifs at h with hp <;> cases h
    · exact if_pos hp
    · exact commandReads_foldText hp sel s

/-- A command that completes has made the reads it has to make. -/
theorem exec_next_reads {i : Instr} {s t : State} (h : exec i s = .next t) : t.reads = commandReads i s := by
  obtain ⟨crc, r, -, hr, -, rfl⟩ := exec_eq_next_iff.1 h
  exact (commandReads_of_commandRun hr).symm

/-- A stuck command has made the reads it had to make. -/
theorem exec_fault_reads {i : Instr} {s : State} {made : List Nat} {a : Nat} (h : exec i s = .fault (.stuckRead made a)) :
    made = commandReads i s := by
  obtain ⟨crc, r, -, hr, -, rfl⟩ := exec_eq_fault_iff.1 h
  exact (commandReads_of_commandRun hr).symm

/-- A text without terminator is read up to the last address (rule R81 (d)). -/
theorem commandReads_foldText_of_unterminated {ptr : Addr} (hp : ptr ≠ 0#32) {s : State}
    (hu : ∀ k, ptr.toNat + k < 4294967296 → ∃ b, s.memRead k (ptr.toNat + k) = some b ∧ b ≠ 0#8) (sel : SeedSel) :
    commandReads (.foldText sel ptr) s = (List.range (4294967296 - ptr.toNat)).map (ptr.toNat + ·) := by
  rw [commandReads_foldText hp, readText_unterminated_reads, addrsFrom_start]
  intro k hk
  simpa [ea] using hu k (by simp only [Config.addrLimit] at hk; omega)

/-- A readable buffer past the top of the address space is read up to the last address (rule R29). -/
theorem commandReads_foldBytes_of_wraps {ptr : Addr} {len : Len} (hp : ptr ≠ 0#32)
    (hw : 4294967296 < ptr.toNat + len.toNat) {s : State}
    (hr : ∀ k, ptr.toNat + k < 4294967296 → (s.memRead k (ptr.toNat + k)).isSome) (sel : SeedSel) :
    commandReads (.foldBytes sel ptr len) s = (List.range (4294967296 - ptr.toNat)).map (ptr.toNat + ·) := by
  have hmin : min len.toNat (4294967296 - ptr.toNat) = 4294967296 - ptr.toNat := by omega
  simp only [Option.isSome_iff_exists] at hr
  choose! M hM using hr
  have hrun := readCells_complete s ptr M (4294967296 - ptr.toNat) 0 fun k hk => by simpa [ea] using hM k (by omega)
  calc commandReads (.foldBytes sel ptr len) s
      = (readCells s ptr (min len.toNat (4294967296 - ptr.toNat)) 0).reads := if_neg hp
    _ = addrsFrom ptr 0 (4294967296 - ptr.toNat) := by rw [hmin, hrun]
    _ = (List.range (4294967296 - ptr.toNat)).map (ptr.toNat + ·) := addrsFrom_start ..

/-- Settles O42: the step goes on to the reset state with the first `n` reads of the word, which are those of its command in each
case. -/
theorem resetAbandonsTheCommandInProgress : Obligations.ResetAbandonsTheCommandInProgress := by
  intro s w race n rest h s₀
  refine ⟨_, step_commandReset h, rfl, rfl, rfl, rfl, rfl, List.length_take_le ..,
    fun i a hd => ⟨fun u hu => ?_, fun made b hf => ?_⟩, fun sel ptr hd hp hu => ?_,
    fun sel ptr len hd hp hw hr => ?_, fun e hd => ?_⟩
  · rw [exec_next_reads hu, commandReads_acc, ← wordReads_ok hd]
  · rw [exec_fault_reads hf, commandReads_acc, ← wordReads_ok hd]
  · rw [← commandReads_foldText_of_unterminated hp hu sel, ← wordReads_ok hd]
  · rw [← commandReads_foldBytes_of_wraps hp hw hr sel, ← wordReads_ok hd]
  · exact (congrArg (List.take n) (wordReads_error hd s₀)).trans List.take_nil

/-! ### A host that keeps its duties (rules R122, R125 to R127) -/

/-- A command goes on exactly in its domain (rule R100). -/
theorem exec_completes_iff_wellTyped {i : Instr} {s : State} : (∃ t, exec i s = .next t) ↔ WellTyped i s :=
  exec_responds_iff.symm.trans (commandsCompleteExactlyInTheDomain i s)

/-- A command that completes is one step. -/
theorem step_command_of_exec_next {s u : State} {w : CmdWord} {race : List RaceWrite} {rest : List HostEvent} {i : Instr}
    (h : s.input = .command w race :: rest) (hd : decode w = .ok i)
    (hu : exec i { s with input := rest, race := race } = .next u) : step s = .next u.settle := by
  rw [step_event h, applyEvent, performWord_ok hd, hu, settleResult_next]

/-- What the duties ask of a command. -/
theorem dutyKept_command {s : State} {w : CmdWord} {race : List RaceWrite} {rest : List HostEvent}
    (h : s.input = .command w race :: rest) (hk : DutyKept s) :
    GoodInputs w { s with input := rest, race := [] } ∧ CellsStable w race { s with input := rest, race := [] } := by
  rwa [DutyKept, h] at hk

/-- A command whose cells nobody writes answers what it answers over the memory as it stands (rule R125). -/
theorem exec_of_cellsStable {w : CmdWord} {i : Instr} {s u : State} {race : List RaceWrite} (hd : decode w = .ok i)
    (hs : s.race = []) (hc : CellsStable w race s) (hu : exec i s = .next u) :
    ∃ t, exec i { s with race := race } = .next t ∧ t.acc = u.acc ∧ t.rsp = u.rsp ∧ t.reads = u.reads := by
  have hsame : ∀ (k : Nat) (hk : k < u.reads.length),
      ({ s with race := race } : State).memRead k u.reads[k] = s.memRead k u.reads[k] := fun k hk => by
    have hne : ∀ x ∈ race, x.addr.toNat ≠ u.reads[k] := fun x hx he => hc x hx <| by
      rw [he, wordReads_ok hd, ← exec_next_reads hu]
      exact List.getElem_mem hk
    rw [memRead_of_race_nil hs]
    exact Memory.read_land_of_ne fun x hx => hne x (List.mem_of_mem_filter hx)
  obtain ⟨t, ht, hrsp, hacc, hreads⟩ :=
    responseDependsOnSeedOperandAndBytesRead i s { s with race := race } u hu (startCrc_congr rfl i) hsame
  exact ⟨t, ht, hacc, hrsp, hreads⟩

/-- A host that keeps its duties has its command performed, and the writes of others do not show in the answer. -/
theorem step_command_of_dutyKept {s : State} {w : CmdWord} {race : List RaceWrite} {rest : List HostEvent}
    (h : s.input = .command w race :: rest) (hk : DutyKept s) :
    ∃ t u, step s = .next t ∧ step { s with input := .command w [] :: rest } = .next u ∧
      t.acc = u.acc ∧ t.rsp = u.rsp ∧ t.reads = u.reads := by
  obtain ⟨⟨i, hd, hw⟩, hc⟩ := dutyKept_command h hk
  obtain ⟨u, hu⟩ := exec_completes_iff_wellTyped.2 hw
  obtain ⟨t, ht, hanswer⟩ := exec_of_cellsStable hd rfl hc hu
  exact ⟨_, _, step_command_of_exec_next h hd ht, step_command_of_exec_next rfl hd hu, hanswer⟩

/-- A host that keeps its duties meets no stop: every event but a command goes on whatever the state. -/
theorem step_goes_on_of_dutyKept {s : State} (hk : DutyKept s) : ∃ t, step s = .next t := by
  cases hi : s.input with
  | nil => exact ⟨s, step_idle hi⟩
  | cons e rest =>
    cases e with
    | command w race =>
      obtain ⟨t, -, ht, -⟩ := step_command_of_dutyKept hi hk
      exact ⟨t, ht⟩
    | _ => exact ⟨_, step_event hi⟩

/-- A step that takes a command and goes on had good inputs, as its reads found them. -/
theorem goodInputs_of_step_command {s t : State} {w : CmdWord} {race : List RaceWrite} {rest : List HostEvent}
    (h : s.input = .command w race :: rest) (ht : step s = .next t) : GoodInputs w { s with input := rest, race := race } := by
  rw [step_event h] at ht
  obtain ⟨u, hu, -⟩ := settleResult_eq_next ht
  obtain ⟨i, hd, he⟩ := performWord_next hu
  exact ⟨i, hd, exec_completes_iff_wellTyped.1 ⟨u, he⟩⟩

/-- Settles O44: with the duties kept the command completes with the undisturbed answer, and one that completed was in its
domain. -/
theorem dutiesKeptMeansNoStop : Obligations.DutiesKeptMeansNoStop := by
  refine ⟨fun s => step_goes_on_of_dutyKept, fun s t w race rest h hk ht => ?_,
    fun s t w race rest => goodInputs_of_step_command⟩
  obtain ⟨t', u, ht', hu, hanswer⟩ := step_command_of_dutyKept h hk
  cases ht.symm.trans ht'
  exact ⟨u, hu, hanswer⟩

end Sys2Proof.Machine

/-! # The decoder's map and round trip

Both directions of the round trip are `decode_encode` and `encode_of_decode_ok`; what is left is that a decoded term is well formed
and that the operands, slices of the operand field, are slices of the word. -/

namespace Sys2Proof.Machine

/-- Settles O7: `decode_encode`, the round trip of every well-formed command. -/
theorem decodeOfEncodeIsTheCommand : Obligations.DecodeOfEncodeIsTheCommand :=
  fun _ => decode_encode

/-- The decoder gives INIT with S = 1 no seed (rules R45, R46). -/
theorem wellFormed_init_initSeed (sel : SeedSel) (operand : BitVec 64) :
    (Instr.init sel (initSeed sel operand)).wellFormed = true := by
  cases sel <;> rfl

theorem wellFormed_of_decodeOp_ok {sel : SeedSel} {op : BitVec 4} {operand : BitVec 64} {i : Instr}
    (h : decodeOp sel op operand = .ok i) : i.wellFormed = true := by
  rcases op_cases op with ho | rfl | rfl | rfl | rfl | rfl | rfl | rfl
  · simp [decodeOp_of_reserved ho] at h
  · cases h
    exact wellFormed_init_initSeed sel operand
  all_goals
    cases h
    rfl

theorem wellFormed_of_decode_ok {w : CmdWord} {i : Instr} (h : decode w = .ok i) : i.wellFormed = true := by
  unfold decode at h
  split_ifs at h
  exact wellFormed_of_decodeOp_ok h

/-- Settles O8: the decoder writes no seed for INIT with S = 1, and encoding gives back the bits it looked at. -/
theorem encodeOfDecodeKeepsUsedBits : Obligations.EncodeOfDecodeKeepsUsedBits :=
  fun _ _ h => ⟨wellFormed_of_decode_ok h, encode_of_decode_ok h⟩

/-! ### The opcode map (rules R43, R45, R55) -/

/-- Bit 71 makes the choice (rule R44). -/
theorem seedSelOf_fieldS_eq_omitted_iff {w : CmdWord} : seedSelOf (fieldS w) = .omitted ↔ w.getLsbD 71 = true := by
  rw [BitVec.getLsbD_eq_extractLsb', beq_iff_eq]
  change seedSelOf (fieldS w) = .omitted ↔ fieldS w = 1#1
  rcases BitVec.eq_zero_or_eq_one (fieldS w) with h | h <;> simp [h, seedSelOf]

/-- A choice that is `omitted` exactly when bit 71 is set is the word's own. -/
theorem seedSelOf_fieldS_eq {w : CmdWord} {sel : SeedSel} (h : sel = .omitted ↔ w.getLsbD 71 = true) :
    seedSelOf (fieldS w) = sel := by
  have hiff := seedSelOf_fieldS_eq_omitted_iff.trans h.symm
  cases sel with
  | omitted => exact hiff.2 rfl
  | given =>
    cases hs : seedSelOf (fieldS w) with
    | given => rfl
    | omitted => exact (hiff.1 hs).symm

/-- A slice of the operand field is the same slice of the word. -/
theorem fieldOperand_extractLsb' (w : CmdWord) {start len : Nat} (h : start + len ≤ 64) :
    (fieldOperand w).extractLsb' start len = w.extractLsb' start len := by
  rw [fieldOperand, BitVec.extractLsb'_extractLsb'_of_le h]

theorem decode_of_rsv_zero {w : CmdWord} (h : fieldRsv w = 0#3) :
    decode w = decodeOp (seedSelOf (fieldS w)) (fieldOp w) (fieldOperand w) :=
  if_pos h

/-- Settles O11: with `RSV` = 0 the `OP` chooses the command, and its operands are slices of the word. -/
theorem opcodeMapAndOperandLayout : Obligations.OpcodeMapAndOperandLayout := by
  intro w sel hr hsel
  have hd (op : BitVec 4) (ho : w.extractLsb' 64 4 = op) : decode w = decodeOp sel op (fieldOperand w) := by
    rw [decode_of_rsv_zero hr, seedSelOf_fieldS_eq hsel, ← ho, fieldOp]
  refine ⟨fun ho hs => ?_, fun ho hs => ?_, fun ho => ?_, fun ho => ?_, fun ho => ?_, fun ho => ?_, fun ho => ?_,
    fun ho => ?_⟩ <;> rw [hd _ ho]
  · subst hs
    simp [decodeOp, initSeed, fieldOperand_extractLsb']
  · subst hs
    rfl
  case refine_8 => rfl
  all_goals simp [decodeOp, fieldOperand_extractLsb']

/-- Settles O12: the words are literals, and the decoder computes. -/
theorem specWordsDecode : Obligations.SpecWordsDecode :=
  ⟨rfl, rfl, rfl, rfl, rfl, rfl, rfl, rfl, rfl⟩

end Sys2Proof.Machine

/-! # One step: the invariant, the memory and the decoded command

Each claim about a step that goes on is read off `step_next_cases`: a command's end is a response (`exec_next_shape`) whose reads are
those of `commandReads`, and every other event changes the fields it names. -/

namespace Sys2Proof.Machine

/-! ### The invariant -/

/-- The reads a command makes ascend (rule R27). -/
theorem commandReads_ascend (i : Instr) (s : State) : (commandReads i s).Pairwise (· < ·) := by
  rcases commandReads_cases i s with e | ⟨ptr, m, -, -, e⟩ <;> rw [e]
  · exact .nil
  · exact List.pairwise_map.2 (List.pairwise_lt_range.imp fun h => Nat.add_lt_add_left h _)

/-- The reads a command makes are never null and lie below 2^32 (rules R28, R29). -/
theorem commandReads_legal (i : Instr) (s : State) : ∀ a ∈ commandReads i s, 0 < a ∧ a < Config.addrLimit := by
  intro a ha
  rcases commandReads_cases i s with e | ⟨ptr, m, hp, hm, e⟩ <;> rw [e] at ha
  · cases ha
  · obtain ⟨k, hk, rfl⟩ := List.mem_map.1 ha
    have hk := List.mem_range.1 hk
    have hp : ptr.toNat ≠ 0 := fun h0 => hp (BitVec.eq_of_toNat_eq h0)
    simp only [Config.addrLimit]
    omega

/-- The reads an abandoned command has made ascend and are legal, as those it had to make. -/
theorem wordReads_take_legal (w : CmdWord) (s : State) (n : Nat) :
    ((wordReads w s).take n).Pairwise (· < ·) ∧ ∀ a ∈ (wordReads w s).take n, 0 < a ∧ a < Config.addrLimit := by
  cases hd : decode w with
  | error e => simp [wordReads_error hd]
  | ok i =>
    rw [wordReads_ok hd]
    exact ⟨(commandReads_ascend i s).sublist (List.take_sublist ..),
      fun a ha => commandReads_legal i s a (List.mem_of_mem_take ha)⟩

theorem addr_lt_addrLimit (a : Addr) : a.toNat < Config.addrLimit := a.isLt

/-- A command that completes keeps the invariant, whatever it found in `ACC`, at the ports and in flight. -/
theorem settle_inv_of_exec_next {i : Instr} {s u : State} (h : exec i s = .next u) (hm : s.mem.wf) : u.settle.Inv := by
  have hreads : u.reads = commandReads i s := exec_next_reads h
  obtain ⟨r, rs, rfl⟩ := exec_next_shape h
  rw [respond_reads] at hreads
  subst hreads
  exact ⟨Memory.land_wf hm _, rfl, commandReads_ascend i s, commandReads_legal i s, rfl⟩

/-- Settles O45: each event leaves canonical memory, and the ports either as they were, or as a command or a reset leaves them. -/
theorem invariantKeptByEveryStep : Obligations.InvariantKeptByEveryStep := by
  intro s t hs h
  obtain ⟨hmem, hrsp, hasc, hleg, hrace⟩ := hs
  rcases step_next_cases h with ⟨-, rfl⟩ | ⟨rest, ⟨w, race, i, u, -, -, hu, rfl⟩ | ⟨w, race, n, r, -, rfl, rfl⟩ |
    ⟨-, rfl⟩ | ⟨a, b, -, rfl⟩ | ⟨a, -, rfl⟩⟩
  · exact ⟨hmem, hrsp, hasc, hleg, hrace⟩
  · exact settle_inv_of_exec_next hu hmem
  · obtain ⟨hasc', hleg'⟩ := wordReads_take_legal w { s with input := rest, race := race } n
    exact ⟨Memory.land_wf hmem race, rfl, hasc', hleg', rfl⟩
  · exact ⟨hmem, rfl, .nil, by simp, rfl⟩
  · exact ⟨Memory.write_wf hmem (addr_lt_addrLimit a) b, hrsp, hasc, hleg, hrace⟩
  · exact ⟨Memory.withdraw_wf hmem _, hrsp, hasc, hleg, hrace⟩

/-- Settles O46: the reset state lists no cell, no response, no read and no write. -/
theorem invariantHoldsAtReset : Obligations.InvariantHoldsAtReset :=
  ⟨⟨.nil, by simp [State.reset]⟩, rfl, .nil, by simp [State.reset], rfl⟩

/-- Settles O43: a command leaves the value it answers in `ACC`, and of the other events only a reset takes it away. -/
theorem accHoldsAValueUntilReset : Obligations.AccHoldsAValueUntilReset := by
  intro s t v hacc hreset h
  rcases step_next_cases h with ⟨-, rfl⟩ | ⟨rest, ⟨w, race, i, u, -, -, hu, rfl⟩ | ⟨w, race, n, r, hi, -⟩ | ⟨hi, -⟩ |
    ⟨a, b, -, rfl⟩ | ⟨a, -, rfl⟩⟩
  · exact ⟨v, hacc⟩
  · obtain ⟨v', hv, -⟩ := responseIsTheNewAccumulator i _ u hu
    exact ⟨v', hv⟩
  · exact absurd (by rw [ResetNext, hi]; trivial) hreset
  · exact absurd (by rw [ResetNext, hi]; trivial) hreset
  · exact ⟨v, hacc⟩
  · exact ⟨v, hacc⟩

/-- Settles O23: the command itself only responds; the racing writes land when it is over. -/
theorem onlyOthersWriteMemoryDuringACommand : Obligations.OnlyOthersWriteMemoryDuringACommand := by
  intro s t w race rest hi h
  rw [step_event hi] at h
  obtain ⟨u, hu, rfl⟩ := settleResult_eq_next h
  obtain ⟨i, -, he⟩ := performWord_next hu
  obtain ⟨r, rs, rfl⟩ := exec_next_shape he
  refine ⟨rfl, rfl, rfl, fun a ha => Memory.read_land_of_ne ha, ?_⟩
  rintro rfl
  rfl

/-- A step that takes a command is the command, and then the racing writes land. -/
theorem step_command {s : State} {w : CmdWord} {race : List RaceWrite} {rest : List HostEvent} {i : Instr}
    (h : s.input = .command w race :: rest) (hd : decode w = .ok i) :
    step s = settleResult (exec i { s with input := rest, race := race }) := by
  rw [step_event h, applyEvent, performWord_ok hd]

/-- A 72-bit word placed by `withFetchWord` is presented at CMD. -/
theorem withFetchWord_toNat (s : State) (w : CmdWord) : s.withFetchWord 72 w.toNat = s.present w := by
  rw [State.withFetchWord, tableWord_toNat]

/-- With no write in flight nothing lands. -/
theorem settle_of_race_nil {s : State} (h : s.race = []) : s.settle = s := by
  cases s
  cases h
  rfl

/-- Settles O40: the step is the command with its racing writes landed, each outcome as `exec` gives it; a presented word has none. -/
theorem stepRunsTheDecodedCommand : Obligations.StepRunsTheDecodedCommand := by
  refine ⟨fun s w race rest i hi hd => ⟨fun t h => ?_, fun f h => ?_, fun r h => ?_⟩, fun s w race rest e hi he => ?_,
    fun s => step_idle, fun s w i t hd h => ?_⟩
  · obtain ⟨r, rs, rfl⟩ := exec_next_shape h
    exact step_command_of_exec_next hi hd h
  · rw [step_command hi hd, h, settleResult_fault]
  · rw [step_command hi hd, h, settleResult_refused]
  · rw [step_event hi, applyEvent, performWord_error he, settleResult_refused]
  · have hrace : t.race = [] := by
      obtain ⟨r, rs, rfl⟩ := exec_next_shape h
      rfl
    rw [withFetchWord_toNat, step_command_of_exec_next (s := s.present w) rfl hd h, settle_of_race_nil hrace]

/-- Settles O47: both events change one cell of the memory and nothing else. -/
theorem hostWritesAreReadBack : Obligations.HostWritesAreReadBack := by
  refine ⟨fun s a b rest h => ⟨_, step_event h, ?_, fun a' ha => ?_, rfl, rfl, rfl, rfl, rfl⟩,
    fun s a rest h => ⟨_, step_event h, ?_, fun a' ha => ?_, rfl, rfl, rfl, rfl, rfl⟩⟩
  · exact (Memory.read_write ..).trans (if_pos rfl)
  · exact (Memory.read_write ..).trans (if_neg ha.symm)
  · exact (Memory.read_withdraw ..).trans (if_pos rfl)
  · exact (Memory.read_withdraw ..).trans (if_neg ha.symm)

/-- Settles O48: the writes a read finds are those of the race that are visible by then. -/
theorem readsReturnAValueTheCellHeld : Obligations.ReadsReturnAValueTheCellHeld := by
  intro s k a
  refine ⟨fun b h => ?_, fun h => Memory.read_land_of_ne fun w hw => h w (List.mem_of_mem_filter hw)⟩
  rcases Memory.read_land h with hold | ⟨w, hw, ha, hb⟩
  · exact .inl hold
  · obtain ⟨hmem, hvis⟩ := List.mem_filter.1 hw
    exact .inr ⟨w, hmem, of_decide_eq_true hvis, ha, hb⟩

end Sys2Proof.Machine

/-! # The kernel: its bits, its linearity, and the bit-serial division

The kernel is linear over GF(2) (`update_xor`) and depends on the byte through `crc ^^^ byte` (`update_eq_update_zero`); so is the
bit-serial divider (`serialSteps_xor`). Two linear maps that agree on the single bits are one map (`eq_of_xor_hom`), which compares the
two forms on sixteen words. -/

namespace Sys2Proof.Machine

/-! ### The bit equations (rule R62) -/

theorem getLsbD_nibbleFold (t : Byte) {i : Nat} (h : i < 8) :
    (nibbleFold t).getLsbD i = if i < 4 then t.getLsbD i else xor (t.getLsbD i) (t.getLsbD (i - 4)) := by
  rw [nibbleFold, BitVec.getLsbD_xor, BitVec.getLsbD_shiftLeft]
  by_cases h4 : i < 4 <;> simp [h, h4]

/-- The bits of step 3 of rule R60: `d` above `hi`, `d` four places down, `d` three places up. -/
theorem getLsbD_spread (hi d : Byte) {i : Nat} (h : i < 16) :
    (spread hi d).getLsbD i = xor (xor (if i < 8 then hi.getLsbD i else d.getLsbD (i - 8)) (d.getLsbD (4 + i)))
      (if i < 3 then false else d.getLsbD (i - 3)) := by
  have h3 : i - 3 < 16 := by omega
  rw [spread, BitVec.getLsbD_xor, BitVec.getLsbD_xor, BitVec.getLsbD_append, BitVec.getLsbD_setWidth, BitVec.getLsbD_shiftLeft,
    BitVec.getLsbD_setWidth, BitVec.getLsbD_ushiftRight]
  by_cases hlt : i < 3 <;> simp [h, h3, hlt]

/-- The bits of the two input bytes' XOR. -/
theorem getLsbD_xor_lo8 (crc : Word) (x : Byte) {i : Nat} (h : i < 8) :
    (x ^^^ lo8 crc).getLsbD i = xor (x.getLsbD i) (crc.getLsbD i) := by
  rw [BitVec.getLsbD_xor, lo8, BitVec.getLsbD_extractLsb', Nat.zero_add, decide_eq_true h, Bool.true_and]

theorem getLsbD_hi8 (crc : Word) {i : Nat} (h : i < 8) : (hi8 crc).getLsbD i = crc.getLsbD (8 + i) := by
  rw [hi8, BitVec.getLsbD_extractLsb', decide_eq_true h, Bool.true_and]

/-- Settles O1: the bits of `spread` over those of `nibbleFold`, read at each of the sixteen places. -/
theorem kernelBitEquations : Obligations.KernelBitEquations := by
  intro crc x c t d r
  have hc : ∀ i, (hi8 crc).getLsbD i = if i < 8 then c (8 + i) else false := fun i => by
    split_ifs with hi
    · exact getLsbD_hi8 crc hi
    · exact BitVec.getLsbD_of_ge _ i (Nat.not_lt.1 hi)
  have hd : ∀ i, (nibbleFold (x ^^^ lo8 crc)).getLsbD i = if i < 8 then d i else false := fun i => by
    split_ifs with hi
    · have hi4 : i - 4 < 8 := by omega
      rw [getLsbD_nibbleFold _ hi, getLsbD_xor_lo8 _ _ hi, getLsbD_xor_lo8 _ _ hi4]
    · exact BitVec.getLsbD_of_ge _ i (Nat.not_lt.1 hi)
  have hr : ∀ i < 16, r i = _ := fun i hi => getLsbD_spread (hi8 crc) (nibbleFold (x ^^^ lo8 crc)) hi
  simp only [hc, hd] at hr
  clear_value c d r
  simp [hr]

/-! ### Linearity (rule R64 (a), (b), (c)) -/

theorem hi8_xor (a b : Word) : hi8 (a ^^^ b) = hi8 a ^^^ hi8 b := BitVec.extractLsb'_xor
theorem lo8_xor (a b : Word) : lo8 (a ^^^ b) = lo8 a ^^^ lo8 b := BitVec.extractLsb'_xor

theorem nibbleFold_xor (a b : Byte) : nibbleFold (a ^^^ b) = nibbleFold a ^^^ nibbleFold b := by
  simp only [nibbleFold, BitVec.shiftLeft_xor_distrib]
  ac_rfl

theorem spread_xor (hi hi' d d' : Byte) : spread (hi ^^^ hi') (d ^^^ d') = spread hi d ^^^ spread hi' d' := by
  simp only [spread, ← BitVec.xor_append, BitVec.ushiftRight_xor_distrib, BitVec.setWidth_xor, BitVec.shiftLeft_xor_distrib]
  ac_rfl

theorem update_xor (c c' : Word) (x x' : Byte) : update (c ^^^ c') (x ^^^ x') = update c x ^^^ update c' x' := by
  have hin : x ^^^ x' ^^^ (lo8 c ^^^ lo8 c') = x ^^^ lo8 c ^^^ (x' ^^^ lo8 c') := by ac_rfl
  rw [update, hi8_xor, lo8_xor, hin, nibbleFold_xor, spread_xor, ← update, ← update]

/-- A byte as a word has no high byte. -/
theorem hi8_setWidth (x : Byte) : hi8 (x.setWidth 16) = 0#8 := by
  ext i h
  simp [hi8]

theorem lo8_setWidth (x : Byte) : lo8 (x.setWidth 16) = x :=
  (BitVec.extractLsb'_setWidth_of_le (by decide)).trans BitVec.extractLsb'_eq_self

/-- Rule R64 (a): the byte counts through its XOR with the checksum only. -/
theorem update_eq_update_zero (crc : Word) (x : Byte) : update crc x = update (crc ^^^ x.setWidth 16) 0#8 := by
  rw [update, update, hi8_xor, lo8_xor, hi8_setWidth, lo8_setWidth, BitVec.xor_zero, BitVec.zero_xor, BitVec.xor_comm x]

/-- Settles O3: rule R64 (a), (b), (c), each a lemma of its own. -/
theorem kernelIsLinear : Obligations.KernelIsLinear :=
  ⟨update_eq_update_zero, update_zero_eq_zero_iff.2 rfl, update_xor⟩

/-! ### The bit-serial division (rule R63) -/

theorem serialStep_xor (a b : Word) : serialStep (a ^^^ b) = serialStep a ^^^ serialStep b := by
  simp only [serialStep, BitVec.getLsbD_xor, BitVec.ushiftRight_xor_distrib]
  generalize a >>> 1 = x, b >>> 1 = y, Config.polyReflected = p
  cases a.getLsbD 0 <;> cases b.getLsbD 0
  · rfl
  · exact BitVec.xor_assoc x y p
  · change x ^^^ y ^^^ p = x ^^^ p ^^^ y
    ac_rfl
  · have h : x ^^^ p ^^^ (y ^^^ p) = x ^^^ y ^^^ (p ^^^ p) := by ac_rfl
    simp [h]

theorem serialSteps_xor (n : Nat) (a b : Word) : serialSteps n (a ^^^ b) = serialSteps n a ^^^ serialSteps n b := by
  induction n generalizing a b with
  | zero => rfl
  | succ n ih => rw [serialSteps, serialStep_xor, ih, ← serialSteps, ← serialSteps]

/-- A map that takes XOR to XOR takes 0 to 0. -/
theorem xor_hom_zero {m n : Nat} {f : BitVec m → BitVec n} (hf : ∀ a b, f (a ^^^ b) = f a ^^^ f b) : f 0#m = 0#n := by
  simpa using hf 0#m 0#m

/-- Two maps that take XOR to XOR and agree on the words with a single bit are one map. -/
theorem eq_of_xor_hom {m n : Nat} {f g : BitVec m → BitVec n} (hf : ∀ a b, f (a ^^^ b) = f a ^^^ f b)
    (hg : ∀ a b, g (a ^^^ b) = g a ^^^ g b) (h : ∀ i < m, f (.twoPow m i) = g (.twoPow m i)) (v : BitVec m) : f v = g v := by
  suffices hk : ∀ k ≤ m, ∀ v : BitVec m, (∀ i, k ≤ i → v.getLsbD i = false) → f v = g v from
    hk m (Nat.le_refl m) v fun i hi => BitVec.getLsbD_of_ge v i hi
  intro k
  induction k with
  | zero =>
    intro _ v hv
    have hz : v = 0#m := BitVec.eq_of_getLsbD_eq fun i _ => by rw [hv i (Nat.zero_le i), BitVec.getLsbD_zero]
    rw [hz, xor_hom_zero hf, xor_hom_zero hg]
  | succ k ih =>
    intro hk v hv
    cases hb : v.getLsbD k with
    | false =>
      refine ih (by omega) v fun i hi => ?_
      rcases hi.eq_or_lt with rfl | hi
      · exact hb
      · exact hv i hi
    | true =>
      have hclear : f (v ^^^ .twoPow m k) = g (v ^^^ .twoPow m k) := ih (by omega) _ fun i hi => by
        rcases hi.eq_or_lt with rfl | hi
        · simp [hb, Nat.lt_of_succ_le hk]
        · simp [hv i hi, hi.ne]
      rw [hf, hg, h k hk] at hclear
      exact (BitVec.xor_left_inj _).1 hclear

/-- Settles O2: both forms are linear in `crc ^^^ byte`, and they agree on its sixteen single bits. -/
theorem kernelEqualsBitSerialDivision : Obligations.KernelEqualsBitSerialDivision := by
  intro crc x
  rw [update_eq_update_zero, serial]
  exact eq_of_xor_hom (f := (update · 0#8)) (fun a b => update_xor a b 0#8 0#8) (serialSteps_xor 8) (by decide) _

/-! ### Injectivity in the checksum (rules R64 (d), (e), R67 (d), R83 (h)) -/

theorem hi8_append_lo8 (crc : Word) : hi8 crc ++ lo8 crc = crc :=
  (BitVec.extractLsb'_append_extractLsb'_eq_extractLsb' rfl).trans BitVec.extractLsb'_eq_self

/-- A checksum's high byte stays visible when the same byte is spread over it. -/
theorem spread_injective_left (d : Byte) : Function.Injective (spread · d) := fun hi hi' h => by
  have h : d ++ hi = d ++ hi' := (BitVec.xor_left_inj _).1 ((BitVec.xor_left_inj _).1 h)
  exact (BitVec.append_right_inj d).1 h

theorem update_injective_left (x : Byte) : Function.Injective (update · x) := fun crc crc' h => by
  have hd : nibbleFold (x ^^^ lo8 crc) = nibbleFold (x ^^^ lo8 crc') :=
    (xor_ushiftRight_involutive (k := 5) (by decide)).injective <| by
      simpa only [update, hi8_spread] using congrArg hi8 h
  have hlo : lo8 crc = lo8 crc' := (BitVec.xor_right_inj x).1 (nibbleFold_injective hd)
  have hhi : hi8 crc = hi8 crc' := spread_injective_left _ <| by simpa only [update, hd] using h
  rw [← hi8_append_lo8 crc, hhi, hlo, hi8_append_lo8]

/-- There are as many results as checksums. -/
theorem update_bijective_left (x : Byte) : Function.Bijective (update · x) :=
  Finite.injective_iff_bijective.1 (update_injective_left x)

/-- Settles O4: the low byte cancels itself, and the kernel loses neither the checksum nor the byte. -/
theorem kernelIsBijectiveInChecksum : Obligations.KernelIsBijectiveInChecksum :=
  ⟨update_lo8, update_bijective_left, update_injective⟩

theorem foldList_bijective (bs : List Byte) : Function.Bijective (foldList · bs) := by
  induction bs with
  | nil => exact Function.bijective_id
  | cons b bs ih => exact ih.comp (update_bijective_left b)

/-- Settles O5: a fold is a composition of kernels, one for each byte. -/
theorem foldListChainsAndSeparatesSeeds : Obligations.FoldListChainsAndSeparatesSeeds :=
  ⟨foldList_append, foldList_bijective⟩

/-- Settles O6: the fold goes on from the message's checksum, which its own two bytes cancel. -/
theorem messageWithItsChecksumFoldsToZero : Obligations.MessageWithItsChecksumFoldsToZero := by
  intro seed m c
  exact (foldList_append seed m [lo8 c, hi8 c]).trans (foldList_self c)

end Sys2Proof.Machine

/-! # Equivalences between commands

Two commands that start from one checksum and make one run do the same (`exec_eq_of_same_start_and_run`). INIT makes any checksum the
start of what follows without touching the memory, so the run of the next command stays. The folds of bytes, pieces and texts are then
compared as folds of lists, by `foldList_append`. -/

namespace Sys2Proof.Machine

/-! ### One start and one run -/

theorem readCells_congr_memRead {s s' : State} (h : ∀ k a, s'.memRead k a = s.memRead k a) (ptr : Addr) (n i : Nat) :
    readCells s' ptr n i = readCells s ptr n i := by
  induction n generalizing i with
  | zero => rfl
  | succ n ih => simp only [readCells, h, ih]

theorem readText_congr_memRead {s s' : State} (h : ∀ k a, s'.memRead k a = s.memRead k a) (ptr : Addr) (fuel i : Nat) :
    readText s' ptr fuel i = readText s ptr fuel i := by
  induction fuel generalizing i with
  | zero => rfl
  | succ fuel ih => simp only [readText, h, ih]

/-- A command's run is the same in every state whose reads give the same. -/
theorem commandRun_congr_memRead {s s' : State} (h : ∀ k a, s'.memRead k a = s.memRead k a) (i : Instr) :
    commandRun i s' = commandRun i s := by
  cases i with
  | foldBytes | foldText => simp only [commandRun, readCells_congr_memRead h, readText_congr_memRead h]
  | _ => rfl

/-- The bytes a command folds are no matter of its S bit. -/
theorem commandRun_withSel (sel : SeedSel) (i : Instr) (s : State) : commandRun (i.withSel sel) s = commandRun i s := by
  cases i <;> rfl

theorem startCrc_withSel {i : Instr} (h : i.isFold = true) (sel : SeedSel) (s : State) :
    startCrc (i.withSel sel) s = crcIn sel s := by
  cases i with
  | init => cases h
  | _ => rfl

theorem finishCommand_congr {s s' : State} (h : ∀ r rs, s'.respond r rs = s.respond r rs) (crc : Word) (o : Option Run) :
    finishCommand s' crc o = finishCommand s crc o := by
  cases o with
  | none => rfl
  | some r => simp only [finishCommand, finishRun, h]

/-- Commands that start from one checksum and make one run, in states that differ in `ACC` and the ports only, do the same. -/
theorem exec_eq_of_same_start_and_run {i j : Instr} {s s' : State} (hc : startCrc j s' = startCrc i s)
    (hr : commandRun j s' = commandRun i s) (hs : ∀ r rs, s'.respond r rs = s.respond r rs) : exec j s' = exec i s := by
  cases h : startCrc i s with
  | none => rw [exec_of_startCrc_none h, exec_of_startCrc_none (hc.trans h)]
  | some crc => rw [exec_of_startCrc_some h, exec_of_startCrc_some (hc.trans h), hr, finishCommand_congr hs]

/-! ### `ACC`, the S bit and INIT (rules R11, R44, R111) -/

/-- INIT and the default forms start from a checksum that is not `ACC`'s. -/
theorem startCrc_of_not_reading_acc {i : Instr} (h : i.isFold = false ∨ i.sel = .omitted) (s s' : State) :
    startCrc i s' = startCrc i s := by
  cases hi : i.isFold with
  | true => rw [startCrc_of_isFold hi, startCrc_of_isFold hi, h.resolve_left (by simp [hi]), crcIn_omitted, crcIn_omitted]
  | false =>
    cases i with
    | init sel seed => cases sel <;> rfl
    | _ => cases hi

/-- Settles O28: such a command starts from the same checksum whatever `ACC` holds, and no run looks at `ACC`. -/
theorem defaultFormsDoNotReadAcc : Obligations.DefaultFormsDoNotReadAcc := fun i s a h =>
  have hr : commandRun i { s with acc := a } = commandRun i s :=
    commandRun_congr_memRead (s := s) (s' := { s with acc := a }) (fun _ _ => rfl) i
  exec_eq_of_same_start_and_run (startCrc_of_not_reading_acc h _ _) hr fun _ _ => rfl

theorem execAll_singleton (i : Instr) (s : State) : execAll [i] s = exec i s := by
  cases h : exec i s <;> simp [execAll, h]

/-- INIT and one more command: that command, from the seed in `ACC`. -/
theorem execAll_init_pair (seed : Word) (i : Instr) (s : State) :
    execAll [.init .given seed, i] s = exec i (s.respond seed []) := by
  rw [execAll_cons_of_next (t := s.respond seed []) rfl, execAll_singleton]

/-- Settles O29: INIT puts the default seed in `ACC`, where the fold with S = 0 finds it; the run is the same. -/
theorem defaultFormIsInitThenChainedForm : Obligations.DefaultFormIsInitThenChainedForm := by
  intro i s hi
  have hinit : execAll [.init .omitted 0#16, i.withSel .given] s = exec (i.withSel .given) (s.respond Config.defaultSeed []) :=
    execAll_init_pair Config.defaultSeed (i.withSel .given) s
  rw [hinit]
  refine (exec_eq_of_same_start_and_run ?_ ?_ fun _ _ => respond_respond ..).symm
  · rw [startCrc_withSel hi, startCrc_withSel hi]
    rfl
  · rw [commandRun_withSel, commandRun_withSel, commandRun_congr_memRead fun _ _ => respond_memRead ..]

/-- A refusal after the checksum is by the run alone. -/
theorem finishCommand_refused_congr {s : State} {crc : Word} {o : Option Run} {e : Refusal}
    (h : finishCommand s crc o = .refused e) (s' : State) : finishCommand s' crc o = .refused e := by
  cases o with
  | none => exact h
  | some r =>
    rcases finishRun_cases s crc r with ⟨-, he⟩ | ⟨a, -, he⟩ | ⟨hend, he⟩ <;> cases h.symm.trans he
    rw [finishCommand, finishRun, hend]

/-- Commands that start from one checksum and make one run give one answer or meet one stop, whatever the states. -/
theorem exec_congr_answer {i : Instr} {s s' : State} (hc : startCrc i s' = startCrc i s)
    (hr : commandRun i s' = commandRun i s) :
    (∀ t, exec i s = .next t → ∃ t', exec i s' = .next t' ∧ t'.acc = t.acc ∧ t'.rsp = t.rsp ∧ t'.reads = t.reads) ∧
    (∀ f, exec i s = .fault f → exec i s' = .fault f) ∧ ∀ e, exec i s = .refused e → exec i s' = .refused e := by
  refine ⟨fun t ht => ?_, fun ⟨made, a⟩ hf => ?_, fun e he => ?_⟩
  · obtain ⟨crc, r, hcrc, hrun, hend, rfl⟩ := exec_eq_next_iff.1 ht
    exact ⟨_, exec_eq_next_iff.2 ⟨crc, r, hc.trans hcrc, hr.trans hrun, hend, rfl⟩, rfl, rfl, rfl⟩
  · obtain ⟨crc, r, hcrc, hrun, hend⟩ := exec_eq_fault_iff.1 hf
    exact exec_eq_fault_iff.2 ⟨crc, r, hc.trans hcrc, hr.trans hrun, hend⟩
  · cases h : startCrc i s with
    | none => rwa [exec_of_startCrc_none h, ← exec_of_startCrc_none (hc.trans h)] at he
    | some crc =>
      rw [exec_of_startCrc_some h] at he
      rw [exec_of_startCrc_some (hc.trans h), hr, finishCommand_refused_congr he]

/-- Settles O31: after INIT with the kept response the command finds the checksum it would have found, and over the same memory it
makes the same run. -/
theorem suspendAndResumeIsExact : Obligations.SuspendAndResumeIsExact := by
  intro i s s' r hacc hmem hrace
  have hc : startCrc i (s'.respond r []) = startCrc i s := startCrc_congr ((respond_acc ..).trans hacc.symm) i
  have hr : commandRun i (s'.respond r []) = commandRun i s :=
    commandRun_congr_memRead (fun k a => (respond_memRead ..).trans (memRead_congr hmem hrace k a)) i
  simpa only [execAll_init_pair] using exec_congr_answer hc hr

/-! ### Sequences of FOLD_BYTE (rules R72, R83 (a)) -/

/-- A list of FOLD_BYTE after any response folds its bytes from there, and its last response is the whole fold. -/
theorem execAll_foldByte_respond (s : State) (bs : List Byte) (crc : Word) :
    execAll (bs.map (.foldByte .given)) (s.respond crc []) = .next (s.respond (foldList crc bs) []) := by
  induction bs generalizing crc with
  | nil => rfl
  | cons b bs ih =>
    have hb : exec (.foldByte .given b) (s.respond crc []) = .next (s.respond (update crc b) []) :=
      exec_foldByte_of_startsFrom (sel := .given) (respond_acc ..) b
    rw [List.map_cons, execAll_cons_of_next hb, ih, foldList_cons]

/-- The same from `ACC`, whatever the ports hold. -/
theorem execAll_foldByte_acc {s : State} {crc : Word} (h : s.acc = .value crc) (bs : List Byte) :
    ∃ u, execAll (bs.map (.foldByte .given)) s = .next u ∧ u.acc = .value (foldList crc bs) := by
  cases bs with
  | nil => exact ⟨s, rfl, h⟩
  | cons b bs =>
    refine ⟨_, ?_, respond_acc s (foldList crc (b :: bs)) []⟩
    rw [List.map_cons, execAll_cons_of_next (exec_foldByte_of_startsFrom (sel := .given) h b), execAll_foldByte_respond,
      foldList_cons]

/-- Settles O32: INIT responds with the seed, and each FOLD_BYTE with the fold so far. -/
theorem sequenceOfFoldByteIsAFold : Obligations.SequenceOfFoldByteIsAFold := by
  intro s seed bs k
  refine ⟨s.respond (foldList seed (bs.take k)) [], ?_, respond_acc .., respond_rsp .., respond_mem ..⟩
  rw [execAll_cons_of_next (t := s.respond seed []) rfl, execAll_foldByte_respond]

/-- Settles O33: both fold the buffer's bytes into the checksum of `ACC`. -/
theorem bufferFoldDecomposesIntoBytes : Obligations.BufferFoldDecomposesIntoBytes := by
  intro s ptr len M crc hacc hp hw hM
  obtain ⟨u, hu, huacc⟩ := execAll_foldByte_acc hacc ((List.range len.toNat).map M)
  exact ⟨_, u, exec_foldBytes_of_readable (sel := .given) hacc hp hw hM, hu, huacc.symm⟩

/-! ### A buffer in two pieces (rule R83 (b)) -/

/-- The fold of the first `k` bytes, then of the rest, is the fold of all. -/
theorem foldList_range_split (crc : Word) (M : Nat → Byte) {k n : Nat} (h : k ≤ n) :
    foldList (foldList crc ((List.range k).map M)) ((List.range (n - k)).map fun j => M (k + j)) =
      foldList crc ((List.range n).map M) := by
  obtain ⟨m, rfl⟩ := Nat.exists_eq_add_of_le h
  rw [← foldList_append, Nat.add_sub_cancel_left, List.range_add, List.map_append, List.map_map]
  rfl

/-- The second piece of a readable buffer is folded whole. Where it starts past the last address its pointer wraps to null, but then
it is empty. -/
theorem exec_foldBytes_rest {s : State} {crc : Word} (h : s.acc = .value crc) {ptr : Addr} {n k : Len} (hp : ptr ≠ 0#32)
    (hw : ptr.toNat + n.toNat ≤ 4294967296) (hk : k.toNat ≤ n.toNat) {M : Nat → Byte}
    (hM : ∀ j < n.toNat - k.toNat, s.memRead j (ptr.toNat + (k.toNat + j)) = some (M (k.toNat + j))) :
    ∃ rs, exec (.foldBytes .given (ptr + k) (n - k)) s =
      .next (s.respond (foldList crc ((List.range (n.toNat - k.toNat)).map fun j => M (k.toNat + j))) rs) := by
  have hlen : (n - k).toNat = n.toNat - k.toNat := BitVec.toNat_sub_of_le hk
  by_cases hlt : ptr.toNat + k.toNat < 4294967296
  · have hadd : (ptr + k).toNat = ptr.toNat + k.toNat := BitVec.toNat_add_of_lt hlt
    have hp' : ptr + k ≠ 0#32 := fun h0 => hp <| BitVec.eq_of_toNat_eq <| by
      rw [h0] at hadd
      simp only [BitVec.toNat_ofNat] at hadd ⊢
      omega
    rw [← hlen]
    refine ⟨_, exec_foldBytes_of_readable (sel := .given) h hp' (by omega) fun j hj => ?_⟩
    rw [hadd, Nat.add_assoc]
    exact hM j (hlen ▸ hj)
  · have h0 : n.toNat - k.toNat = 0 := by omega
    rw [h0]
    exact ⟨_, exec_foldBytes_of_null_or_empty (sel := .given) h (.inr (BitVec.eq_of_toNat_eq (hlen.trans h0)))⟩

/-- Settles O34: both ways fold the buffer's bytes in order, and over memory nobody writes each read gives what the cell holds. -/
theorem bufferFoldSplits : Obligations.BufferFoldSplits := by
  intro s ptr n k crc hrace hacc hp hw hr hk
  simp only [Option.isSome_iff_exists] at hr
  choose! M hM using hr
  have hread {t : State} (hm : t.mem = s.mem) (ht : t.race = s.race) {j : Nat} (hj : j < n.toNat) (i : Nat) :
      t.memRead i (ptr.toNat + j) = some (M j) := by
    rw [memRead_of_race_nil (ht.trans hrace), hm, hM j hj]
  have hall := exec_foldBytes_of_readable (sel := .given) hacc hp hw fun j hj => hread rfl rfl hj j
  have hfirst := exec_foldBytes_of_readable (sel := .given) (len := k) hacc hp (by omega)
    fun j hj => hread rfl rfl (hj.trans_le hk) j
  obtain ⟨rs, hrest⟩ := exec_foldBytes_rest (respond_acc ..) hp hw hk fun j hj =>
    hread (respond_mem s (foldList crc ((List.range k.toNat).map M)) ((List.range k.toNat).map (ptr.toNat + ·))) rfl (by omega) j
  refine ⟨_, s.respond (foldList crc ((List.range n.toNat).map M)) rs, hall, ?_, rfl, rfl⟩
  rw [execAll_cons_of_next hfirst, execAll_singleton, hrest, foldList_range_split crc M hk, respond_respond]

/-! ### Texts and scalars as buffers (rules R83 (c), R93) -/

/-- Settles O35: the text that was folded is the buffer of its bytes, which FOLD_BYTES folds too. -/
theorem textFoldsAsBuffer : Obligations.TextFoldsAsBuffer := by
  intro sel ptr s t hp h
  obtain ⟨crc, -, hcrc, -⟩ := exec_eq_next_iff.1 h
  rcases execFoldText_cases hcrc ptr with ⟨h0, -⟩ | ⟨-, n, M, hn, hM, h0, e⟩ | ⟨-, -, e⟩ | ⟨-, n, -, -, -, e⟩
  · exact absurd h0 hp
  · cases h.symm.trans e
    obtain ⟨hfold, -⟩ := foldTextFoldsUpToTheTerminator sel ptr s
    obtain ⟨-, htext⟩ := hfold crc (crcIn_eq_some_iff.1 hcrc)
    obtain ⟨hterm, -⟩ := htext hp
    obtain ⟨-, ⟨u, hu, huacc, hursp⟩, -⟩ := hterm n M hn hM h0
    have hlen : (BitVec.ofNat 32 n).toNat = n := Nat.mod_eq_of_lt (by omega)
    refine ⟨BitVec.ofNat 32 n, u, hlen.symm ▸ h0, fun k hk => ?_, hu, huacc, hursp⟩
    obtain ⟨hb, hz⟩ := hM k (hlen ▸ hk)
    simp [hb, hz]
  · cases h.symm.trans e
  · cases h.symm.trans e

/-- Byte `k` of a scalar, as a number (rule R24). -/
theorem byteOf_eq_ofNat {w : Nat} (v : BitVec w) (k : Nat) : byteOf v k = BitVec.ofNat 8 (v.toNat / 256 ^ k) := by
  apply BitVec.eq_of_toNat_eq
  rw [byteOf, BitVec.extractLsb'_toNat, BitVec.toNat_ofNat, Nat.shiftRight_eq_div_pow, Nat.pow_mul]

/-- The low bytes of a scalar are those of its low part. -/
theorem leBytes_low {w : Nat} (n : Nat) (v : BitVec w) : leBytes n (v.extractLsb' 0 (8 * n)) = leBytes n v := by
  simpa [leBytes] using leBytes_extractLsb' 0 n v

/-- FOLD_BYTES over cells that hold a scalar's bytes, least significant first, folds the scalar's bytes. -/
theorem exec_foldBytes_of_leBytes {sel : SeedSel} {s : State} {crc : Word} (h : StartsFrom sel s crc) {ptr : Addr} {len : Len}
    (hp : ptr ≠ 0#32) {w : Nat} {v : BitVec w}
    (hcells : ptr.toNat + len.toNat ≤ 4294967296 ∧
      ∀ k < len.toNat, s.memRead k (ptr.toNat + k) = some (BitVec.ofNat 8 (v.toNat / 256 ^ k))) :
    ∃ rs, exec (.foldBytes sel ptr len) s = .next (s.respond (foldList crc (leBytes len.toNat v)) rs) := by
  obtain ⟨hw, hM⟩ := hcells
  simp only [← byteOf_eq_ofNat] at hM
  exact ⟨_, exec_foldBytes_of_readable h hp hw hM⟩

/-- Settles O36: the scalar command folds the scalar's bytes from its operand, FOLD_BYTES the same bytes from the cells. -/
theorem scalarFoldsAsLittleEndianBuffer : Obligations.ScalarFoldsAsLittleEndianBuffer := by
  intro sel ptr s crc v h hp holds agree
  refine ⟨fun hc => ?_, fun hc => ?_, fun hc => ?_⟩
  · obtain ⟨rs, hb⟩ := exec_foldBytes_of_leBytes (len := 2#32) h hp hc
    have hlow : leBytes 2 (v.extractLsb' 0 16) = leBytes 2 v := leBytes_low 2 v
    have hs := exec_foldScalar16_of_startsFrom h (v.extractLsb' 0 16)
    rw [hlow] at hs
    exact ⟨_, _, hs, hb, rfl, rfl⟩
  · obtain ⟨rs, hb⟩ := exec_foldBytes_of_leBytes (len := 4#32) h hp hc
    have hlow : leBytes 4 (v.extractLsb' 0 32) = leBytes 4 v := leBytes_low 4 v
    have hs := exec_foldScalar32_of_startsFrom h (v.extractLsb' 0 32)
    rw [hlow] at hs
    exact ⟨_, _, hs, hb, rfl, rfl⟩
  · obtain ⟨rs, hb⟩ := exec_foldBytes_of_leBytes (len := 8#32) h hp hc
    exact ⟨_, _, exec_foldScalar64_of_startsFrom h v, hb, rfl, rfl⟩

end Sys2Proof.Machine

/-! # The sequencer against `exec`

The loop of a command's source of bytes ends as the command's run does (`seqSource_cases`), and it ends in one way (`run_unique`). So
what the loop finishes or sticks with is what `exec` makes of the run. -/

namespace Sys2Proof.Machine

/-- The loop over an operand's bytes ends as the run that brings them. -/
theorem run_operand_start (s : State) (bytes : List Byte) (crc : Word) :
    Sequencer.run s (.operand bytes) (bytes.length + 1) (.start crc) = tickOfRun (.start crc) ⟨bytes, [], .complete⟩ := by
  rw [run_operand s bytes bytes.length (.start crc) (Nat.zero_add _)]
  simp [tickOfRun, Sequencer.start]

/-- A command has a source of bytes exactly when it has a run, and the loop over the source ends as the run does. -/
theorem seqSource_cases (i : Instr) (s : State) :
    (seqSource i = none ∧ commandRun i s = none) ∨
    ∃ src r, seqSource i = some src ∧ commandRun i s = some r ∧
      ∀ crc, ∃ n, Sequencer.run s src n (.start crc) = tickOfRun (.start crc) r := by
  have hoperand (bytes : List Byte) (crc : Word) :
      ∃ n, Sequencer.run s (.operand bytes) n (.start crc) = tickOfRun (.start crc) ⟨bytes, [], .complete⟩ :=
    ⟨_, run_operand_start s bytes crc⟩
  cases i with
  | init | foldByte | foldScalar16 | foldScalar32 | foldScalar64 => exact .inr ⟨_, _, rfl, rfl, hoperand _⟩
  | foldBytes sel ptr len =>
    simp only [seqSource, commandRun]
    split_ifs
    · exact .inr ⟨_, _, rfl, rfl, hoperand _⟩
    · exact .inl ⟨rfl, rfl⟩
    · exact .inr ⟨_, _, rfl, rfl, fun crc => ⟨_, run_buffer s ptr len.toNat len.toNat (.start crc) (Nat.zero_add _)⟩⟩
  | foldText sel ptr =>
    simp only [seqSource, commandRun]
    split_ifs
    · exact .inr ⟨_, _, rfl, rfl, hoperand _⟩
    · exact .inr ⟨_, _, rfl, rfl, fun crc => ⟨_, run_text s ptr _ (.start crc) rfl⟩⟩

/-- The loop of a command comes to an end exactly when the command's run does, and to the same. -/
theorem run_ends_iff {i : Instr} {s : State} {crc : Word} {t : Tick} (ht : ∀ q, t ≠ .running q) :
    (∃ src n, seqSource i = some src ∧ Sequencer.run s src n (.start crc) = t) ↔
      ∃ r, commandRun i s = some r ∧ tickOfRun (.start crc) r = t := by
  rcases seqSource_cases i s with ⟨hsrc, hrun⟩ | ⟨src, r, hsrc, hrun, hend⟩
  · simp [hsrc, hrun]
  · obtain ⟨n, hn⟩ := hend crc
    constructor
    · rintro ⟨src', n', hsrc', hn'⟩
      cases hsrc.symm.trans hsrc'
      exact ⟨r, hrun, run_unique (tickOfRun_ne_running _ r) ht hn hn'⟩
    · rintro ⟨r', hrun', ht'⟩
      cases hrun.symm.trans hrun'
      exact ⟨src, n, hsrc, hn.trans ht'⟩

/-- The sequencing state a run leaves: its fold, as many kernel applications as bytes, its reads. -/
def Run.sequencer (crc : Word) (r : Run) : Sequencer := ⟨foldList crc r.bytes, r.bytes.length, r.reads⟩

theorem tickOfRun_start_eq_finished_iff {crc : Word} {r : Run} {q : Sequencer} :
    tickOfRun (.start crc) r = .finished q ↔ r.ending = .complete ∧ q = r.sequencer crc := by
  unfold tickOfRun
  cases r.ending <;> simp [Sequencer.start, Run.sequencer, eq_comm]

theorem tickOfRun_start_eq_stuck_iff {crc : Word} {r : Run} {q : Sequencer} {a : Nat} :
    tickOfRun (.start crc) r = .stuck q a ↔ r.ending = .stuck a ∧ q = r.sequencer crc := by
  unfold tickOfRun
  cases r.ending <;> simp [Sequencer.start, Run.sequencer, eq_comm, and_comm]

/-- The loop finishes exactly with the sequencing state of a complete run. -/
theorem run_finished_iff {i : Instr} {s : State} {crc : Word} {q : Sequencer} :
    (∃ src n, seqSource i = some src ∧ Sequencer.run s src n (.start crc) = .finished q) ↔
      ∃ r, commandRun i s = some r ∧ r.ending = .complete ∧ q = r.sequencer crc := by
  simp only [run_ends_iff (t := .finished q) (by simp), tickOfRun_start_eq_finished_iff]

/-- The loop is stuck exactly with the sequencing state of a stuck run. -/
theorem run_stuck_iff {i : Instr} {s : State} {crc : Word} {q : Sequencer} {a : Nat} :
    (∃ src n, seqSource i = some src ∧ Sequencer.run s src n (.start crc) = .stuck q a) ↔
      ∃ r, commandRun i s = some r ∧ r.ending = .stuck a ∧ q = r.sequencer crc := by
  simp only [run_ends_iff (t := .stuck q a) (by simp), tickOfRun_start_eq_stuck_iff]

/-- Settles O38: `exec` and the loop make the same of the command's run. -/
theorem sequencerRefinesTheAtomicCommand : Obligations.SequencerRefinesTheAtomicCommand := by
  refine fun i s => ⟨fun t => ?_, fun made a => ?_⟩
  · rw [exec_eq_next_iff]
    constructor
    · rintro ⟨crc, r, hcrc, hr, hend, rfl⟩
      obtain ⟨src, n, hsrc, hn⟩ := run_finished_iff.2 ⟨r, hr, hend, rfl⟩
      exact ⟨crc, src, n, _, hcrc, hsrc, hn, rfl⟩
    · rintro ⟨crc, src, n, q, hcrc, hsrc, hn, rfl⟩
      obtain ⟨r, hr, hend, rfl⟩ := run_finished_iff.1 ⟨src, n, hsrc, hn⟩
      exact ⟨crc, r, hcrc, hr, hend, rfl⟩
  · rw [exec_eq_fault_iff]
    constructor
    · rintro ⟨crc, r, hcrc, hr, hend, rfl⟩
      obtain ⟨src, n, hsrc, hn⟩ := run_stuck_iff.2 ⟨r, hr, hend, rfl⟩
      exact ⟨crc, src, n, _, hcrc, hsrc, hn, rfl⟩
    · rintro ⟨crc, src, n, q, hcrc, hsrc, hn, rfl⟩
      obtain ⟨r, hr, hend, rfl⟩ := run_stuck_iff.1 ⟨src, n, hsrc, hn⟩
      exact ⟨crc, r, hcrc, hr, hend, rfl⟩

/-! ### Counts (rule R130 (b), (c)) -/

/-- A complete run of FOLD_BYTES has a byte and a read for each cell. -/
theorem readCells_counts {s : State} {ptr : Addr} {n i : Nat} (h : (readCells s ptr n i).ending = .complete) :
    (readCells s ptr n i).bytes.length = n ∧ (readCells s ptr n i).reads.length = n := by
  rcases readCells_cases s ptr n i with ⟨M, hM⟩ | ⟨k, hk, hr, hs⟩
  · simp [readCells_complete s ptr M n i hM, addrsFrom]
  · simp [(readCells_stuck s ptr k n i hk hr hs).1] at h

/-- A complete run of FOLD_TEXT has the bytes of a text, and one read more. -/
theorem readText_counts {s : State} {ptr : Addr} (h : (readText s ptr (Config.addrLimit - ptr.toNat) 0).ending = .complete) :
    TextReadable s ptr (readText s ptr (Config.addrLimit - ptr.toNat) 0).bytes.length ∧
      (readText s ptr (Config.addrLimit - ptr.toNat) 0).reads.length =
        (readText s ptr (Config.addrLimit - ptr.toNat) 0).bytes.length + 1 := by
  rcases readText_cases s ptr (Config.addrLimit - ptr.toNat) 0 with ⟨n, hn, M, hM, h0⟩ | ⟨k, hk, hr, hs⟩ | hu
  · rw [readText_complete s ptr M n _ 0 hn hM h0]
    simp only [Nat.zero_add] at hM h0
    simp only [addrsFrom, List.length_map, List.length_range, and_true]
    exact ⟨by rw [ea]; omega, fun k hk => ⟨M k, hM k hk⟩, h0⟩
  · simp [(readText_stuck s ptr k _ 0 hk hr hs).1] at h
  · simp [readText_unterminated s ptr _ 0 hu] at h

/-- Settles O39: the loop leaves the counts of a complete run, which its operand or its cells fix. -/
theorem kernelAndReadCounts : Obligations.KernelAndReadCounts := by
  intro i s crc src n q hsrc hn
  obtain ⟨r, hr, hend, rfl⟩ := run_finished_iff.1 ⟨src, n, hsrc, hn⟩
  cases i with
  | init | foldByte | foldScalar16 | foldScalar32 | foldScalar64 => cases hr; exact ⟨rfl, rfl⟩
  | foldBytes sel ptr len =>
    simp only [commandRun] at hr
    split_ifs at hr with hp hw
    · cases hr
      exact ⟨fun _ => ⟨rfl, rfl⟩, (absurd hp ·)⟩
    · cases hr
      exact ⟨(absurd · hp), fun _ => readCells_counts hend⟩
  | foldText sel ptr =>
    simp only [commandRun] at hr
    split_ifs at hr with hp
    · cases hr
      exact ⟨fun _ => ⟨rfl, rfl⟩, (absurd hp ·)⟩
    · cases hr
      exact ⟨(absurd · hp), fun _ => readText_counts hend⟩

end Sys2Proof.Machine

/-! # The assembler's lines

Every line is its command by definition. What is left are a signed operand, which a bit vector's own number gives back
(`signedBits_toInt`), and the places of a float's fields (`extractLsb'_append_three`). -/

namespace Sys2Proof.Machine

/-- The two's complement image of a bit vector's own number is the bit vector (rule R53). -/
theorem signedBits_toInt {w : Nat} (v : BitVec w) : signedBits w v.toInt = some v := by
  rw [signedBits, if_pos ⟨BitVec.le_toInt v, BitVec.toInt_lt⟩, BitVec.ofInt_toInt]

/-- A bit vector put together from three fields has each in its place. -/
theorem extractLsb'_append_three {m n k : Nat} (x : BitVec m) (y : BitVec n) (z : BitVec k) :
    (x ++ y ++ z).extractLsb' (n + k) m = x ∧ (x ++ y ++ z).extractLsb' k n = y ∧ (x ++ y ++ z).extractLsb' 0 k = z := by
  refine ⟨?_, ?_, BitVec.extractLsb'_append_eq_right⟩
  · rw [BitVec.extractLsb'_append_eq_of_le (Nat.le_add_left k n), Nat.add_sub_cancel, BitVec.extractLsb'_append_eq_left]
  · rw [BitVec.extractLsb'_append_eq_of_le (Nat.le_refl k), Nat.sub_self, BitVec.extractLsb'_append_eq_right]

/-- Settles O49: every line is its command by definition, but for the places of a float's fields and the signed operands. -/
theorem aliasesExpandToTheirCommands : Obligations.AliasesExpandToTheirCommands := by
  refine ⟨⟨rfl, fun _ => rfl⟩, fun v => extractLsb'_append_three .., fun v => extractLsb'_append_three .., fun d =>
    ⟨fun _ => rfl, fun _ _ => ⟨rfl, rfl, rfl, rfl⟩, fun _ => rfl, fun _ => rfl, fun _ => rfl, fun _ => rfl, fun _ => rfl,
      fun v => ?_, fun v => ⟨rfl, ?_⟩, fun v => ⟨rfl, ?_⟩, fun v => ⟨rfl, ?_⟩, fun _ => rfl, fun _ => rfl, rfl⟩⟩
  all_goals simp [AsmLine.assemble, signedBits_toInt]

end Sys2Proof.Machine

/-! # Float images

For an interchange format of any widths: the fields of an image stand for a number with a significand and a unit exponent
(`FloatFormat.decode_of_finite`), encoding gives the fields back (`FloatFormat.encode_decode`), a value with fields is what they stand
for (`FloatFormat.decode_of_encode`), and two sets of fields for one value are one (`FloatFormat.eq_of_decode_same`). binary32 and
binary64 are two such formats. -/

namespace Sys2Proof.Machine

/-! ### Scaling by a power of two -/

/-- What `scaleWhole` gives is the scaled number. -/
theorem scaleWhole_cast {m r : Nat} {k : Int} (h : scaleWhole m k = some r) : (r : ℚ) = m * 2 ^ k := by
  cases k with
  | ofNat k =>
    cases h
    simp
  | negSucc k =>
    simp only [scaleWhole] at h
    split_ifs at h with hdvd
    cases h
    rw [Nat.cast_div (Nat.dvd_of_mod_eq_zero hdvd) (by simp), zpow_negSucc, div_eq_mul_inv]
    simp

@[simp] theorem scaleWhole_zero (m : Nat) : scaleWhole m 0 = some m := congrArg some (Nat.mul_one m)

/-- A number is below the power of two above its highest bit. -/
theorem cast_lt_zpow_log2 (m : Nat) : (m : ℚ) < 2 ^ ((m.log2 : Int) + 1) := by
  have h : m < 2 ^ (m.log2 + 1) := Nat.lt_log2_self
  exact_mod_cast h

/-- A number that is not 0 reaches the power of two of its highest bit. -/
theorem zpow_log2_le_cast {m : Nat} (hm : m ≠ 0) : (2 : ℚ) ^ (m.log2 : Int) ≤ m := by
  have h : 2 ^ m.log2 ≤ m := Nat.log2_self_le hm
  exact_mod_cast h

theorem scaleWhole_lt {m r p : Nat} {k : Int} (h : scaleWhole m k = some r) (hp : m.log2 + 1 + k ≤ p) : r < 2 ^ p := by
  have hq : (r : ℚ) < 2 ^ (p : Int) :=
    calc (r : ℚ) = m * 2 ^ k := scaleWhole_cast h
      _ < 2 ^ ((m.log2 : Int) + 1) * 2 ^ k := by gcongr; exact cast_lt_zpow_log2 m
      _ = 2 ^ ((m.log2 : Int) + 1 + k) := (zpow_add₀ two_ne_zero _ _).symm
      _ ≤ 2 ^ (p : Int) := zpow_le_zpow_right₀ one_le_two hp
  exact_mod_cast hq

theorem le_scaleWhole {m r p : Nat} {k : Int} (hm : m ≠ 0) (h : scaleWhole m k = some r) (hp : p ≤ m.log2 + k) : 2 ^ p ≤ r := by
  have hq : (2 : ℚ) ^ (p : Int) ≤ r :=
    calc (2 : ℚ) ^ (p : Int) ≤ 2 ^ ((m.log2 : Int) + k) := zpow_le_zpow_right₀ one_le_two hp
      _ = 2 ^ (m.log2 : Int) * 2 ^ k := zpow_add₀ two_ne_zero _ _
      _ ≤ m * 2 ^ k := by gcongr; exact zpow_log2_le_cast hm
      _ = r := (scaleWhole_cast h).symm
  exact_mod_cast hq

/-! ### The fields of a format -/

/-- Fields that the format's widths hold. -/
def FloatFormat.Fits (F : FloatFormat) (x : FloatFields) : Prop :=
  x.exponent < 2 ^ F.exponentBits ∧ x.fraction < 2 ^ F.fractionBits

/-- The integer whose multiple of a power of two the fields of a number stand for. -/
def FloatFormat.significand (F : FloatFormat) (x : FloatFields) : Nat :=
  if x.exponent = 0 then x.fraction else 2 ^ F.fractionBits + x.fraction

/-- The exponent of that power of two. -/
def FloatFormat.unitExponent (F : FloatFormat) (x : FloatFields) : Int :=
  (max x.exponent 1 : Nat) - F.bias - F.fractionBits

section
variable {F : FloatFormat}

theorem bias_nonneg (F : FloatFormat) : 0 ≤ F.bias := by
  have h : (1 : Int) ≤ 2 ^ (F.exponentBits - 1) := one_le_pow₀ one_le_two
  rw [FloatFormat.bias]
  omega

/-- The field of infinities and NaNs is one above that of the greatest normal numbers. -/
theorem topField_eq (hF : 0 < F.exponentBits) : (F.topField : Int) = 2 * F.bias + 1 := by
  obtain ⟨n, hn⟩ : ∃ n, F.exponentBits = n + 1 := ⟨F.exponentBits - 1, by omega⟩
  have h : 1 ≤ 2 ^ (n + 1) := Nat.one_le_two_pow
  simp only [FloatFormat.topField, FloatFormat.bias, hn, Nat.add_sub_cancel]
  push_cast [h]
  ring

theorem exponent_le_topField {x : FloatFields} (hx : F.Fits x) : x.exponent ≤ F.topField := Nat.le_pred_of_lt hx.1

theorem FloatFormat.decode_of_top {x : FloatFields} (h : x.exponent = F.topField) :
    F.decode x = if x.fraction = 0 then .infinity x.neg else .nan x.neg x.fraction :=
  if_pos h

theorem FloatFormat.decode_of_finite {x : FloatFields} (h : x.exponent ≠ F.topField) :
    F.decode x = .finite x.neg (F.significand x) (F.unitExponent x) := by
  rw [FloatFormat.decode, if_neg h, FloatFormat.significand, FloatFormat.unitExponent]
  split_ifs with h0
  · simp [h0, FloatFormat.minExponent]
  · rw [Nat.max_eq_left (Nat.pos_of_ne_zero h0)]

/-! ### The cases of `encodeFinite` -/

/-- A number in the range of the normal ones. -/
theorem encodeFinite_normal {m : Nat} {e : Int} (hm : m ≠ 0) (hlo : F.minExponent ≤ m.log2 + e) (hhi : m.log2 + e ≤ F.bias)
    (neg : Bool) : F.encodeFinite neg m e = (scaleWhole m (F.fractionBits - m.log2)).map fun significand =>
      ⟨neg, (m.log2 + e + F.bias).toNat, significand - 2 ^ F.fractionBits⟩ := by
  rw [FloatFormat.encodeFinite, if_neg hm, if_neg (not_lt.2 hhi), if_pos hlo]

/-- A number below the normal ones. -/
theorem encodeFinite_subnormal {m : Nat} {e : Int} (hm : m ≠ 0) (hlo : m.log2 + e < F.minExponent) (neg : Bool) :
    F.encodeFinite neg m e =
      (scaleWhole m (e - (F.minExponent - F.fractionBits))).map fun fraction => ⟨neg, 0, fraction⟩ := by
  have hb := bias_nonneg F
  have hhi : ¬ F.bias < m.log2 + e := by
    rw [FloatFormat.minExponent] at hlo
    omega
  rw [FloatFormat.encodeFinite, if_neg hm, if_neg hhi, if_neg (not_le.2 hlo)]

/-- Everything a number with fields can be: a zero, a normal number, a number below them. -/
theorem encodeFinite_cases {neg : Bool} {m : Nat} {e : Int} {x : FloatFields} (h : F.encodeFinite neg m e = some x) :
    (m = 0 ∧ x = ⟨neg, 0, 0⟩) ∨
    (m ≠ 0 ∧ F.minExponent ≤ m.log2 + e ∧ m.log2 + e ≤ F.bias ∧ ∃ r, scaleWhole m (F.fractionBits - m.log2) = some r ∧
      x = ⟨neg, (m.log2 + e + F.bias).toNat, r - 2 ^ F.fractionBits⟩) ∨
    (m ≠ 0 ∧ m.log2 + e < F.minExponent ∧ ∃ r, scaleWhole m (e - (F.minExponent - F.fractionBits)) = some r ∧
      x = ⟨neg, 0, r⟩) := by
  by_cases hm : m = 0
  · rw [FloatFormat.encodeFinite, if_pos hm] at h
    exact .inl ⟨hm, (Option.some.inj h).symm⟩
  by_cases hlo : F.minExponent ≤ m.log2 + e
  · by_cases hhi : m.log2 + e ≤ F.bias
    · rw [encodeFinite_normal hm hlo hhi] at h
      obtain ⟨r, hr, hx⟩ := Option.map_eq_some_iff.1 h
      exact .inr (.inl ⟨hm, hlo, hhi, r, hr, hx.symm⟩)
    · rw [FloatFormat.encodeFinite, if_neg hm, if_pos (not_le.1 hhi)] at h
      cases h
  · rw [encodeFinite_subnormal hm (not_le.1 hlo)] at h
    obtain ⟨r, hr, hx⟩ := Option.map_eq_some_iff.1 h
    exact .inr (.inr ⟨hm, not_le.1 hlo, r, hr, hx.symm⟩)

/-! ### Encoding of decoded fields -/

/-- The fields of a zero or a subnormal number come back. -/
theorem encodeFinite_of_exponent_zero {f : Nat} (hf : f < 2 ^ F.fractionBits) (neg : Bool) :
    F.encodeFinite neg f (F.minExponent - F.fractionBits) = some ⟨neg, 0, f⟩ := by
  by_cases h0 : f = 0
  · rw [FloatFormat.encodeFinite, if_pos h0, h0]
  · have hlog : f.log2 < F.fractionBits := (Nat.log2_lt h0).2 hf
    rw [encodeFinite_subnormal h0 (by omega), sub_self, scaleWhole_zero, Option.map_some]

/-- The fields of a normal number come back. -/
theorem encodeFinite_of_exponent_normal {e f : Nat} (he : 0 < e) (hb : (e : Int) ≤ 2 * F.bias) (hf : f < 2 ^ F.fractionBits)
    (neg : Bool) : F.encodeFinite neg (2 ^ F.fractionBits + f) (e - F.bias - F.fractionBits) = some ⟨neg, e, f⟩ := by
  have hm : 2 ^ F.fractionBits + f ≠ 0 := by positivity
  have hlog : (2 ^ F.fractionBits + f).log2 = F.fractionBits := (Nat.log2_eq_iff hm).2 ⟨by omega, by rw [Nat.pow_succ]; omega⟩
  have hexp : (F.fractionBits : Int) + (e - F.bias - F.fractionBits) = e - F.bias := by ring
  rw [encodeFinite_normal hm (by rw [hlog, hexp, FloatFormat.minExponent]; omega) (by rw [hlog, hexp]; omega), hlog, hexp,
    sub_self, scaleWhole_zero, Option.map_some, Nat.add_sub_cancel_left, sub_add_cancel, Int.toNat_natCast]

/-- The value of an image has the image's fields. -/
theorem FloatFormat.encode_decode (hF : 0 < F.exponentBits) {x : FloatFields} (hx : F.Fits x) :
    F.encode (F.decode x) = some x := by
  have hle := exponent_le_topField hx
  have htop := topField_eq hF
  obtain ⟨neg, e, f⟩ := x
  obtain ⟨-, hf⟩ := hx
  rw [FloatFormat.decode]
  split_ifs with h h0 h0
  · cases h
    cases h0
    rfl
  · cases h
    exact if_pos ⟨Nat.pos_of_ne_zero h0, hf⟩
  · cases h0
    exact encodeFinite_of_exponent_zero hf neg
  · simp only at hle h h0
    exact encodeFinite_of_exponent_normal (Nat.pos_of_ne_zero h0) (by omega) hf neg

/-! ### A value with fields is what they stand for -/

theorem exponent_fits {e : Nat} (h : e ≤ F.topField) : e < 2 ^ F.exponentBits := by
  have hpos : 0 < 2 ^ F.exponentBits := Nat.two_pow_pos _
  rw [FloatFormat.topField] at h
  omega

/-- Fields whose significand is the scaled number, with the exponent to match, stand for the number. -/
theorem FloatFormat.decode_same_of_scaled {x : FloatFields} (hx : x.exponent ≠ F.topField) {m : Nat} {e k : Int}
    (hs : scaleWhole m k = some (F.significand x)) (hu : F.unitExponent x = e - k) :
    (F.decode x).Same (.finite x.neg m e) := by
  rw [FloatFormat.decode_of_finite hx]
  refine ⟨rfl, ?_⟩
  calc (F.significand x : ℚ) * 2 ^ F.unitExponent x = m * 2 ^ k * 2 ^ (e - k) := by rw [scaleWhole_cast hs, hu]
    _ = m * 2 ^ e := by rw [mul_assoc, ← zpow_add₀ two_ne_zero, add_sub_cancel]

theorem FloatFormat.decode_of_encodeFinite (hF : 0 < F.exponentBits) {neg : Bool} {m : Nat} {e : Int} {x : FloatFields}
    (h : F.encodeFinite neg m e = some x) : F.Fits x ∧ (F.decode x).Same (.finite neg m e) := by
  have htop := topField_eq hF
  have hbias := bias_nonneg F
  have hmin : F.minExponent = 1 - F.bias := rfl
  have hpos : 0 < 2 ^ F.fractionBits := Nat.two_pow_pos _
  have hne : 0 ≠ F.topField := by omega
  rcases encodeFinite_cases h with ⟨rfl, rfl⟩ | ⟨hm, hlo, hhi, r, hr, rfl⟩ | ⟨hm, hlo, r, hr, rfl⟩
  · refine ⟨⟨exponent_fits (Nat.zero_le _), hpos⟩, ?_⟩
    rw [FloatFormat.decode_of_finite hne]
    simp [FloatValue.Same, FloatFormat.significand]
  · have hge : 2 ^ F.fractionBits ≤ r := le_scaleWhole hm hr (by omega)
    have hlt : r < 2 ^ (F.fractionBits + 1) := scaleWhole_lt hr (by push_cast; omega)
    rw [Nat.pow_succ] at hlt
    have hexp : (m.log2 + e + F.bias).toNat ≠ 0 := by omega
    refine ⟨⟨exponent_fits (by simp only; omega), by simp only; omega⟩,
      FloatFormat.decode_same_of_scaled (k := F.fractionBits - m.log2) (by simp only; omega) ?_ ?_⟩
    · rw [hr, FloatFormat.significand, if_neg hexp, Nat.add_sub_cancel' hge]
    · simp only [FloatFormat.unitExponent]
      omega
  · have hlt : r < 2 ^ F.fractionBits := scaleWhole_lt hr (by omega)
    exact ⟨⟨exponent_fits (Nat.zero_le _), hlt⟩,
      FloatFormat.decode_same_of_scaled hne hr (by simp [FloatFormat.unitExponent, hmin])⟩

/-- A value that has fields has fields within the widths, and they stand for that value. -/
theorem FloatFormat.decode_of_encode (hF : 0 < F.exponentBits) {v : FloatValue} {x : FloatFields} (h : F.encode v = some x) :
    F.Fits x ∧ (F.decode x).Same v := by
  have hfits : F.topField < 2 ^ F.exponentBits := exponent_fits (Nat.le_refl _)
  cases v with
  | infinity neg =>
    cases h
    rw [FloatFormat.decode_of_top rfl, if_pos rfl]
    exact ⟨⟨hfits, Nat.two_pow_pos _⟩, rfl⟩
  | nan neg carried =>
    simp only [FloatFormat.encode] at h
    split_ifs at h with hc
    cases h
    rw [FloatFormat.decode_of_top rfl, if_neg hc.1.ne']
    exact ⟨⟨hfits, hc.2⟩, rfl, rfl⟩
  | finite neg m e => exact FloatFormat.decode_of_encodeFinite hF h

/-! ### One value, one image -/

theorem significand_lt {x : FloatFields} (hx : F.Fits x) : F.significand x < 2 ^ (F.fractionBits + 1) := by
  obtain ⟨-, hf⟩ := hx
  rw [FloatFormat.significand, Nat.pow_succ]
  split_ifs <;> omega

/-- Only a normal number has a unit exponent above another's, and its significand has its leading 1. -/
theorem le_significand_of_unitExponent_lt {x y : FloatFields} (h : F.unitExponent x < F.unitExponent y) :
    2 ^ F.fractionBits ≤ F.significand y := by
  simp only [FloatFormat.unitExponent] at h
  have hy : y.exponent ≠ 0 := by omega
  rw [FloatFormat.significand, if_neg hy]
  omega

/-- Fields for one number have one unit exponent: a larger one would go with a significand too small for its leading 1. -/
theorem unitExponent_not_lt {x y : FloatFields} (hx : F.Fits x)
    (h : (F.significand x : ℚ) * 2 ^ F.unitExponent x = F.significand y * 2 ^ F.unitExponent y) :
    ¬ F.unitExponent x < F.unitExponent y := by
  intro hlt
  obtain ⟨k, hk⟩ := Int.le.dest (Int.add_one_le_of_lt hlt)
  have hsig : F.significand x = F.significand y * 2 ^ (1 + k) := by
    rw [← hk, add_assoc, zpow_add₀ two_ne_zero, mul_left_comm, mul_comm] at h
    have hq := mul_left_cancel₀ (zpow_ne_zero _ two_ne_zero) h
    exact_mod_cast hq
  have hle : 2 ^ F.fractionBits * 2 ≤ F.significand x :=
    calc 2 ^ F.fractionBits * 2 ≤ F.significand y * 2 ^ (1 + k) :=
          Nat.mul_le_mul (le_significand_of_unitExponent_lt hlt) (Nat.le_self_pow (by omega) 2)
      _ = F.significand x := hsig.symm
  have hlt' := significand_lt hx
  rw [Nat.pow_succ] at hlt'
  omega

/-- A significand and a unit exponent determine the two fields. -/
theorem fields_eq_of_number_eq {x y : FloatFields} (hx : F.Fits x) (hy : F.Fits y) (hneg : x.neg = y.neg)
    (hs : F.significand x = F.significand y) (hu : F.unitExponent x = F.unitExponent y) : x = y := by
  obtain ⟨n, e, f⟩ := x
  obtain ⟨n', e', f'⟩ := y
  obtain ⟨-, hf⟩ := hx
  obtain ⟨-, hf'⟩ := hy
  simp only [FloatFormat.significand, FloatFormat.unitExponent] at hneg hs hu hf hf'
  have hef : e = e' ∧ f = f' := by
    split_ifs at hs <;> omega
  simp [hneg, hef]

/-- Two images that stand for one value have one set of fields. -/
theorem FloatFormat.eq_of_decode_same {x y : FloatFields} (hx : F.Fits x) (hy : F.Fits y)
    (h : (F.decode x).Same (F.decode y)) : x = y := by
  by_cases hxt : x.exponent = F.topField
  · by_cases hyt : y.exponent = F.topField
    · obtain ⟨n, e, f⟩ := x
      obtain ⟨n', e', f'⟩ := y
      rw [FloatFormat.decode_of_top hxt, FloatFormat.decode_of_top hyt] at h
      simp only at hxt hyt h
      split_ifs at h with hf hf' hf'
      · obtain rfl : n = n' := h
        rw [hxt, hyt, hf, hf']
      · cases h
      · cases h
      · obtain ⟨rfl, rfl⟩ : n = n' ∧ f = f' := h
        rw [hxt, hyt]
    · rw [FloatFormat.decode_of_top hxt, FloatFormat.decode_of_finite hyt] at h
      split_ifs at h <;> cases h
  · by_cases hyt : y.exponent = F.topField
    · rw [FloatFormat.decode_of_finite hxt, FloatFormat.decode_of_top hyt] at h
      split_ifs at h <;> cases h
    · rw [FloatFormat.decode_of_finite hxt, FloatFormat.decode_of_finite hyt] at h
      obtain ⟨hneg, hnum⟩ := h
      have hu : F.unitExponent x = F.unitExponent y :=
        le_antisymm (not_lt.1 (unitExponent_not_lt hy hnum.symm)) (not_lt.1 (unitExponent_not_lt hx hnum))
      rw [hu] at hnum
      have hs : F.significand x = F.significand y := by
        exact_mod_cast mul_right_cancel₀ (zpow_ne_zero _ two_ne_zero) hnum
      exact fields_eq_of_number_eq hx hy hneg hs hu

/-! ### Images held as bit vectors

`B` holds the fields of a format's images one for one, `W` their bits. -/

variable {B W : Type} {fields : B → FloatFields} {ofFields : FloatFields → B}

theorem image_of_value (hF : 0 < F.exponentBits) (hfits : ∀ b, F.Fits (fields b)) (hleft : ∀ b, ofFields (fields b) = b)
    (bits : B → W) (b : B) :
    (F.encode (F.decode (fields b))).map (fun x => bits (ofFields x)) = some (bits b) := by
  rw [FloatFormat.encode_decode hF (hfits b), Option.map_some, hleft]

theorem value_of_image (hF : 0 < F.exponentBits) (hright : ∀ x, F.Fits x → fields (ofFields x) = x) {bits : B → W}
    {v : FloatValue} {w : W} (h : (F.encode v).map (fun x => bits (ofFields x)) = some w) :
    ∃ b, bits b = w ∧ (F.decode (fields b)).Same v := by
  obtain ⟨x, hx, hw⟩ := Option.map_eq_some_iff.1 h
  obtain ⟨hfits, hsame⟩ := FloatFormat.decode_of_encode hF hx
  exact ⟨ofFields x, hw, by rwa [hright x hfits]⟩

theorem image_unique (hfits : ∀ b, F.Fits (fields b)) (hleft : ∀ b, ofFields (fields b) = b) {b c : B}
    (h : (F.decode (fields b)).Same (F.decode (fields c))) : b = c := by
  rw [← hleft b, ← hleft c, FloatFormat.eq_of_decode_same (hfits b) (hfits c) h]

end

/-! ### binary32 and binary64 (rules R53, R94) -/

theorem ofBool_beq_one : ∀ s : BitVec 1, BitVec.ofBool (s == 1#1) = s := by
  decide

theorem ofBool_beq_one_eq (b : Bool) : (BitVec.ofBool b == 1#1) = b := by
  cases b <;> rfl

/-- The fields of a binary32 image as numbers. -/
def Binary32.fields (b : Binary32) : FloatFields := ⟨b.sign == 1#1, b.exponent.toNat, b.fraction.toNat⟩

theorem Binary32.value_eq_decode (b : Binary32) : b.value = binary32.decode b.fields := rfl

theorem Binary32.fields_fit (b : Binary32) : binary32.Fits b.fields := ⟨b.exponent.isLt, b.fraction.isLt⟩

theorem Binary32.ofFields_fields (b : Binary32) : Binary32.ofFields b.fields = b := by
  simp [Binary32.ofFields, Binary32.fields, ofBool_beq_one]

theorem Binary32.fields_ofFields (x : FloatFields) (h : binary32.Fits x) : (Binary32.ofFields x).fields = x := by
  have he : (BitVec.ofNat 8 x.exponent).toNat = x.exponent := Nat.mod_eq_of_lt h.1
  have hf : (BitVec.ofNat 23 x.fraction).toNat = x.fraction := Nat.mod_eq_of_lt h.2
  rw [Binary32.ofFields, Binary32.fields, ofBool_beq_one_eq, he, hf]

/-- The fields of a binary64 image as numbers. -/
def Binary64.fields (b : Binary64) : FloatFields := ⟨b.sign == 1#1, b.exponent.toNat, b.fraction.toNat⟩

theorem Binary64.value_eq_decode (b : Binary64) : b.value = binary64.decode b.fields := rfl

theorem Binary64.fields_fit (b : Binary64) : binary64.Fits b.fields := ⟨b.exponent.isLt, b.fraction.isLt⟩

theorem Binary64.ofFields_fields (b : Binary64) : Binary64.ofFields b.fields = b := by
  simp [Binary64.ofFields, Binary64.fields, ofBool_beq_one]

theorem Binary64.fields_ofFields (x : FloatFields) (h : binary64.Fits x) : (Binary64.ofFields x).fields = x := by
  have he : (BitVec.ofNat 11 x.exponent).toNat = x.exponent := Nat.mod_eq_of_lt h.1
  have hf : (BitVec.ofNat 52 x.fraction).toNat = x.fraction := Nat.mod_eq_of_lt h.2
  rw [Binary64.ofFields, Binary64.fields, ofBool_beq_one_eq, he, hf]

theorem binary32_exponentBits_pos : 0 < binary32.exponentBits := by decide
theorem binary64_exponentBits_pos : 0 < binary64.exponentBits := by decide

/-- Settles O50: the three laws of a format's images, for binary32 and binary64, and the spec's patterns. -/
theorem floatImagesAreOfTheirValues : Obligations.FloatImagesAreOfTheirValues := by
  simp only [Obligations.FloatImagesAreOfTheirValues, Binary32.value_eq_decode, Binary64.value_eq_decode]
  refine ⟨?_, fun v w => ?_, ?_, fun v w => ?_, fun b c => ?_, fun b c => ?_, ?_⟩
  · exact image_of_value binary32_exponentBits_pos Binary32.fields_fit Binary32.ofFields_fields Binary32.bits
  · exact value_of_image binary32_exponentBits_pos Binary32.fields_ofFields
  · exact image_of_value binary64_exponentBits_pos Binary64.fields_fit Binary64.ofFields_fields Binary64.bits
  · exact value_of_image binary64_exponentBits_pos Binary64.fields_ofFields
  · exact image_unique Binary32.fields_fit Binary32.ofFields_fields
  · exact image_unique Binary64.fields_fit Binary64.ofFields_fields
  · decide

end Sys2Proof.Machine
